-- ==== Sys2Proof/Word.lean ====
section
/-!
DEFINITION. The widths of SEFX (spec/00_scope.md R7, R9, R11).
-/

namespace Sys2Proof

/-- A register (cell), an address and a word are 16 bits (R7, R9). -/
abbrev Word := BitVec 16

/-- A byte is 8 bits (R9). -/
abbrev Byte := BitVec 8

/-- A command is one 128-bit value `CMD[127:0]` (R11, R80). -/
abbrev CommandWord := BitVec 128

/-- A0 and A1 of a response are 17 bits, because the first failing address of a read can be
0x10000 (R11, R96). -/
abbrev Addr17 := BitVec 17

end Sys2Proof
end

