-- ==== Sys2Proof/Config.lean ====
section
/-!
DEFINITION. What is fixed for the block (spec/00_scope.md R7, R8) and the eight rows of the address map
that the source gives (spec/20_memory.md R62). No rule leaves a value free (spec/30_encoding.md R92,
spec/10_state.md R35), so nothing here is opaque.
-/

namespace Sys2Proof

/-- The number of cells: addresses 0x0000 to 0xFFFF (R8, R50). -/
def Config.registerCount : Nat := 0x10000

/-- One row of the known part of the address map (R62). -/
structure Config.MapRow where
  /-- the first register of the row's entry -/
  addr : Word
  /-- the entry's width in words -/
  words : Nat
  /-- whether the row's entry is signed, the S of its DEF -/
  signed : Bool
  /-- the multiplier applied before truncation -/
  scale : Nat
  /-- the document's name of the field -/
  field : String
  deriving DecidableEq, Repr

/-- The eight rows the source gives; "the signedness of every row is unsigned" (R62). They are a fact about one build program: no command reads
them, and the rest of the map is the host's parameter BUILD_PROGRAM (R6, R63). -/
def Config.knownMap : List Config.MapRow :=
  [ ⟨0x3000, 1, false, 100, "array rated voltage"⟩,
    ⟨0x3002, 2, false, 100, "array rated power"⟩,
    ⟨0x3100, 1, false, 100, "PV input voltage"⟩,
    ⟨0x3106, 2, false, 100, "battery charging power"⟩,
    ⟨0x311A, 1, false, 100, "battery state of charge"⟩,
    ⟨0x9000, 1, false, 1, "battery type code"⟩,
    ⟨0x2000, 1, false, 1, "over-temperature flag"⟩,
    ⟨0x200C, 1, false, 1, "is_night"⟩ ]

end Sys2Proof
end

