-- ==== Sys2Proof/Syntax.lean ====
section
/-!
DEFINITION. The commands of SEFX as syntax (spec/30_encoding.md R80 to R85): the fields of format C and one
constructor per assigned opcode.
-/

namespace Sys2Proof

/-- The five assigned opcodes (R84). -/
inductive Opcode where
  | enc | define | commit | read | write
  deriving DecidableEq, Repr

/-- The fields of format C below OP, each with any value (R81). R83 asks for a raw command and a check
kept apart, because a malformed command is still a command of its opcode (R91). -/
structure Fields where
  /-- CLS, bits 119:118 -/
  cls : BitVec 2
  /-- WIDTH, bits 117:116 -/
  width : BitVec 2
  /-- S, bit 115 -/
  s : BitVec 1
  /-- RSV, bits 114:112 -/
  rsv : BitVec 3
  /-- ADDR, bits 111:96 -/
  addr : BitVec 16
  /-- SC, bits 95:80: SCALE of an ENC or DEF, COUNT of a READ or WRITE (R87) -/
  sc : BitVec 16
  /-- VDEN, bits 79:64 -/
  vden : BitVec 16
  /-- VNUM, bits 63:0 -/
  vnum : BitVec 64
  deriving DecidableEq, Repr

/-- A command of an assigned opcode (stage 1 of R83), well-formed or not. -/
inductive Instr where
  /-- ENC, opcode 0x01 (R110) -/
  | enc (f : Fields)
  /-- DEF, opcode 0x02 (R140) -/
  | define (f : Fields)
  /-- COMMIT, opcode 0x03 (R150) -/
  | commit (f : Fields)
  /-- READ, opcode 0x04 (R170) -/
  | read (f : Fields)
  /-- WRITE, opcode 0x05 (R177) -/
  | write (f : Fields)
  deriving DecidableEq, Repr

/-- The opcode of a command. -/
def Instr.opcode : Instr → Opcode
  | .enc _ => .enc
  | .define _ => .define
  | .commit _ => .commit
  | .read _ => .read
  | .write _ => .write

/-- The fields of a command. -/
def Instr.fields : Instr → Fields
  | .enc f => f
  | .define f => f
  | .commit f => f
  | .read f => f
  | .write f => f

/-- Every field zero: what COMMIT requires below OP (R85). -/
def Fields.zero : Fields := ⟨0, 0, 0, 0, 0, 0, 0, 0⟩

/-- The width of an entry in words, 1 or 2 (R7, R88). -/
inductive Width where
  | one | two
  deriving DecidableEq, Repr

/-- How many words a width stands for. -/
def Width.words : Width → Nat
  | .one => 1
  | .two => 2

/-- The four resource classes, in the order that numbers them (R89). -/
inductive ResourceClass where
  | coils | discreteInputs | holdingRegisters | inputRegisters
  deriving DecidableEq, Repr

end Sys2Proof
end

