-- ==== Sys2Proof/WellFormed.lean ====
section
/-!
DEFINITION. Stage 2 of decoding as a check on syntax: the must-be-zero fields and the value constraints of
the table of spec/30_encoding.md R85, read row by row. The machine's own stage 2 is the operand assembly of
Machine/Operands.lean; Laws/Operands.lean proves that the two agree.
-/

namespace Sys2Proof

/-- WIDTH in 1, 2 and VDEN nonzero: the value constraints of ENC and DEF (R85, R88). -/
def Fields.scalarOk (f : Fields) : Bool :=
  (f.width == 1 || f.width == 2) && f.vden != 0

/-- What READ and WRITE require: WIDTH, S, RSV, VDEN and VNUM zero, COUNT nonzero (R85). -/
def Fields.requestOk (f : Fields) : Bool :=
  f.width == 0 && f.s == 0 && f.rsv == 0 && f.vden == 0 && f.vnum == 0 && f.sc != 0

/-- A command is well-formed when its must-be-zero fields are zero and its used fields hold legal
values (R83 stage 2, R85). -/
def Instr.wellFormed : Instr → Bool
  | .enc f => f.cls == 0 && f.rsv == 0 && f.addr == 0 && f.scalarOk
  | .define f => f.cls == 0 && f.rsv == 0 && f.scalarOk
  | .commit f => f == Fields.zero
  | .read f => f.requestOk
  | .write f => f.requestOk

end Sys2Proof
end

