-- ==== Sys2Proof/Decode.lean ====
section
/-!
DEFINITION. From bits to commands and back (spec/30_encoding.md R80 to R85, R90, R97): stage 1 of decoding,
the encoder, the carriage over a 16-bit channel (R82), and the decoder of the opcode table (R97).
-/

namespace Sys2Proof

/-- The opcode map (R84): the command an OP value selects; none for the 251 reserved values. -/
def opcodeOf (op : BitVec 8) : Option Opcode :=
  match op.toNat with
  | 1 => some .enc
  | 2 => some .define
  | 3 => some .commit
  | 4 => some .read
  | 5 => some .write
  | _ => none

/-- The OP value of a command (R84). -/
def Opcode.code : Opcode → BitVec 8
  | .enc => 0x01
  | .define => 0x02
  | .commit => 0x03
  | .read => 0x04
  | .write => 0x05

/-- The command of an opcode with these fields. -/
def Opcode.withFields : Opcode → Fields → Instr
  | .enc => .enc
  | .define => .define
  | .commit => .commit
  | .read => .read
  | .write => .write

/-- The fields of format C in a command word, at the bit positions of R81. -/
def fieldsOf (w : CommandWord) : Fields :=
  { cls := w.extractLsb' 118 2
    width := w.extractLsb' 116 2
    s := w.extractLsb' 115 1
    rsv := w.extractLsb' 112 3
    addr := w.extractLsb' 96 16
    sc := w.extractLsb' 80 16
    vden := w.extractLsb' 64 16
    vnum := w.extractLsb' 0 64 }

/-- Why a word, or what a channel carried, is no well-formed command. -/
inductive DecodeError where
  /-- OP is 0x00 or at least 0x06 (R90) -/
  | reservedOpcode (op : BitVec 8)
  /-- the selected command fails stage 2 (R91) -/
  | malformed (i : Instr)
  /-- not the eight words, or sixteen bytes, that carry one command (R80, R82) -/
  | notACommandLength (n : Nat)
  deriving DecidableEq, Repr

/-- Stage 1 of decoding (R83): OP alone selects the command. This is the decoder the block runs on. -/
def decode (w : CommandWord) : Except DecodeError Instr :=
  match opcodeOf (w.extractLsb' 120 8) with
  | some op => .ok (op.withFields (fieldsOf w))
  | none => .error (.reservedOpcode (w.extractLsb' 120 8))

/-- Both stages of decoding (R83), a malformed command rejected by name. -/
def decodeWellFormed (w : CommandWord) : Except DecodeError Instr :=
  match decode w with
  | .ok i => if i.wellFormed then .ok i else .error (.malformed i)
  | .error e => .error e

/-- The command word of a command: format C (R81), `++` with the left operand more significant (R9). -/
def encode (i : Instr) : CommandWord :=
  i.opcode.code ++ i.fields.cls ++ i.fields.width ++ i.fields.s ++ i.fields.rsv ++ i.fields.addr
    ++ i.fields.sc ++ i.fields.vden ++ i.fields.vnum

/-- A command word carried over a channel 16 bits wide: eight words, most significant first (R82). -/
def channelWords (w : CommandWord) : List Word :=
  [ w.extractLsb' 112 16, w.extractLsb' 96 16, w.extractLsb' 80 16, w.extractLsb' 64 16,
    w.extractLsb' 48 16, w.extractLsb' 32 16, w.extractLsb' 16 16, w.extractLsb' 0 16 ]

/-- The command word that eight channel words carry (R82); any other number of words carries none. -/
def commandOfWords : List Word → Except DecodeError CommandWord
  | [w0, w1, w2, w3, w4, w5, w6, w7] => .ok (w0 ++ w1 ++ w2 ++ w3 ++ w4 ++ w5 ++ w6 ++ w7)
  | ws => .error (.notACommandLength ws.length)

/-- The bytes of a list of words, the high byte of each word first (R53, R82): `BYTES`. -/
def bytesOfWords : List Word → List Byte
  | [] => []
  | w :: ws => w.extractLsb' 8 8 :: w.extractLsb' 0 8 :: bytesOfWords ws

/-- The words that a list of bytes carries, high byte first; none for an odd number of bytes. -/
def wordsOfBytes : List Byte → Option (List Word)
  | [] => some []
  | [_] => none
  | hi :: lo :: bs => (wordsOfBytes bs).map fun ws => (hi ++ lo) :: ws

/-- The decoder on what a channel of bytes carries (R82). -/
def decodeBytes (bs : List Byte) : Except DecodeError Instr :=
  match wordsOfBytes bs with
  | none => .error (.notACommandLength bs.length)
  | some ws =>
    match commandOfWords ws with
    | .ok w => decode w
    | .error e => .error e

/-- One row of spec/opcode_table.json, as far as a decoder reads it (R97). -/
structure OpcodeRow where
  /-- the command the row describes -/
  opcode : Opcode
  /-- `mask`: the bits stage 1 compares -/
  mask : CommandWord
  /-- `match`: their values -/
  pattern : CommandWord
  /-- `mbz_mask`: the bits stage 2 requires to be zero -/
  mustBeZero : CommandWord
  /-- the constraint `WIDTH in {1,2}` stands in the row, with `VDEN != 0` beside it -/
  scalar : Bool
  /-- the constraint `COUNT != 0` stands in the row -/
  count : Bool
  deriving DecidableEq, Repr

/-- The five rows of the opcode table (R97). -/
def opcodeTable : List OpcodeRow :=
  [ ⟨.enc, 0xFF000000000000000000000000000000, 0x01000000000000000000000000000000,
      0x00C7FFFF000000000000000000000000, true, false⟩,
    ⟨.define, 0xFF000000000000000000000000000000, 0x02000000000000000000000000000000,
      0x00C70000000000000000000000000000, true, false⟩,
    ⟨.commit, 0xFF000000000000000000000000000000, 0x03000000000000000000000000000000,
      0x00FFFFFFFFFFFFFFFFFFFFFFFFFFFFFF, false, false⟩,
    ⟨.read, 0xFF000000000000000000000000000000, 0x04000000000000000000000000000000,
      0x003F00000000FFFFFFFFFFFFFFFFFFFF, false, true⟩,
    ⟨.write, 0xFF000000000000000000000000000000, 0x05000000000000000000000000000000,
      0x003F00000000FFFFFFFFFFFFFFFFFFFF, false, true⟩ ]

/-- What decoding says of a word: reserved, malformed or well-formed (R83). -/
inductive Verdict where
  | reserved
  | malformed (op : Opcode)
  | wellFormed (op : Opcode)
  deriving DecidableEq, Repr

/-- Stage 2 as the table's row gives it: must-be-zero mask and constraints (R97). -/
def OpcodeRow.accepts (r : OpcodeRow) (w : CommandWord) : Bool :=
  (w &&& r.mustBeZero == 0)
    && (!r.scalar || ((w.extractLsb' 116 2 == 1 || w.extractLsb' 116 2 == 2) && w.extractLsb' 64 16 != 0))
    && (!r.count || w.extractLsb' 80 16 != 0)

/-- A decoder written from the table alone (R97). -/
def classifyByTable (w : CommandWord) : Verdict :=
  match opcodeTable.find? (fun r => w &&& r.mask == r.pattern) with
  | none => .reserved
  | some r => if r.accepts w then .wellFormed r.opcode else .malformed r.opcode

/-- The verdict of the two-stage decoder (R83). -/
def classify (w : CommandWord) : Verdict :=
  match decode w with
  | .error _ => .reserved
  | .ok i => if i.wellFormed then .wellFormed i.opcode else .malformed i.opcode

/-- The word with these bits, as spec/opcode_table.json numbers them: its one word is `CMD[127:0]`
itself, bit 0 least significant (R81, R97), and bits from `nbits` up are zero. -/
def tableWord (nbits w : Nat) : CommandWord := BitVec.ofNat 128 (w % 2 ^ nbits)

/-- The command the decoder reads from a table word; none for a reserved opcode. -/
def decodeTableWord (nbits w : Nat) : Option Instr :=
  match decode (tableWord nbits w) with
  | .ok i => some i
  | .error _ => none

end Sys2Proof
end

