-- ==== Sys2Proof/Machine/State.lean ====
section
/-!
DEFINITION. The state of the block (spec/10_state.md R20 to R35), its response record (spec/30_encoding.md
R96), the host's side of the port (spec/70_reset_and_hazards.md R234 to R238), and reset (R230).
-/

namespace Sys2Proof.Machine

/-- CELL (R20, R21): the cells that hold a word, as pairs of address and word by strictly rising
address. An address that is not listed has no word at all, `none` (R21, R64). The unit is the 16-bit
register, because there is no byte address (R50). -/
abbrev Memory := List (Nat × Word)

/-- The lifecycle phase, the register PHASE (R24): "a model's phase type has three constructors". -/
inductive Phase where
  /-- the map is being built -/
  | build
  /-- the map is complete and immutable -/
  | serve
  /-- a configuration error was detected while building -/
  | failed
  deriving DecidableEq, Repr

/-- The complete list of response statuses (R201). -/
inductive Status where
  | ok
  | unsupportedOperation
  | unmappedAddress
  | cfgRange
  | cfgOverlap
  | cfgAddr
  | cfgSpec
  | badCommand
  | phaseError
  | failedRefused
  deriving DecidableEq, Repr

/-- The response record `(STATUS, A0, A1, WORDS)` (R11, R96). -/
structure Response where
  status : Status
  a0 : Addr17
  a1 : Addr17
  words : List Word
  deriving DecidableEq, Repr

/-- The architectural state of SEFX: "exactly these six items and nothing else" (R20). -/
structure Block where
  /-- CELL (R21) -/
  cell : Memory
  /-- PHASE (R24) -/
  phase : Phase
  /-- ECODE, 8 bits (R25) -/
  ecode : BitVec 8
  /-- EADDR_LO, 16 bits (R26) -/
  eaddrLo : Word
  /-- EADDR_HI, 16 bits (R26) -/
  eaddrHi : Word
  /-- NENT, 17 bits (R27) -/
  nent : BitVec 17
  deriving DecidableEq, Repr

/-- What the host can do to the block (R236). Reading the level outputs is `Block.levels`. -/
inductive HostEvent where
  /-- apply the reset input (R230, R231) -/
  | reset
  /-- send one 128-bit command word (R11, R234) -/
  | command (w : CommandWord)
  deriving DecidableEq, Repr

/-- The block and the two ends of its port. `inputs` and `responses` are the MODEL's own fields, not
state of the block (R30): the spec's step takes a command and gives a response (R11, R234), the host's
`step` takes and gives a state only (notes/assumptions/1.md, DESIGN CHOICE). -/
structure State where
  /-- the six items of R20 -/
  block : Block
  /-- what the host does next, the next event first (R238) -/
  inputs : List HostEvent
  /-- the responses given so far, oldest first (R237, R238) -/
  responses : List Response
  deriving DecidableEq, Repr

/-- The block after reset (R35, R230): every cell `none`, PHASE BUILD, the error registers and NENT
zero. -/
def Block.reset : Block :=
  { cell := [], phase := .build, ecode := 0, eaddrLo := 0, eaddrHi := 0, nent := 0 }

/-- The machine right after reset, with nothing asked of it yet. -/
def State.reset : State := { block := Block.reset, inputs := [], responses := [] }

/-- The machine never stops with a fault: "There is no command that never answers and no state in which
the block stops taking commands" (R237). The spec's faults are response statuses (R201), given in a next
state, so this type is empty (notes/assumptions/8.md, DEDUCED, safe). -/
inductive Fault where
  deriving DecidableEq, Repr

/-- Why the machine gives no meaning to a command. -/
inductive Refusal where
  /-- Raised by an arm of `exec` whose instruction has no meaning yet; safe. No arm of this model
  raises it. -/
  | notModelled (mnemonic : String)
  deriving DecidableEq, Repr

/-- What a command or a reset answers with. -/
abbrev Result := Host.Outcome State Fault Refusal

end Sys2Proof.Machine
end

