-- ==== Sys2Proof/Machine/Flags.lean ====
section
/-!
DEFINITION. SEFX has no flags and no condition codes (spec/10_state.md R33): "the outcome of a command is its
response status and nothing else". This file holds the numbers of those statuses and of the phases, which
are what the host sees in a flag's place (spec/60_exceptions.md R201, spec/10_state.md R24, R28).
-/

namespace Sys2Proof.Machine

/-- The STATUS byte of a status (R201). -/
def Status.code : Status → BitVec 8
  | .ok => 0x00
  | .unsupportedOperation => 0x01
  | .unmappedAddress => 0x02
  | .cfgRange => 0x10
  | .cfgOverlap => 0x11
  | .cfgAddr => 0x12
  | .cfgSpec => 0x13
  | .badCommand => 0x20
  | .phaseError => 0x21
  | .failedRefused => 0x7F

/-- The four configuration errors, fatal when DEF raises them in BUILD (R201, R204). -/
def Status.isConfigurationError : Status → Bool
  | .cfgRange => true
  | .cfgOverlap => true
  | .cfgAddr => true
  | .cfgSpec => true
  | _ => false

/-- The value of the 2-bit PHASE register (R24); 3 is never taken. -/
def Phase.code : Phase → BitVec 2
  | .build => 0
  | .serve => 1
  | .failed => 2

/-- The level outputs of the block (R28, R234). -/
structure Levels where
  phase : BitVec 2
  ecode : BitVec 8
  eaddrLo : Word
  eaddrHi : Word
  nent : BitVec 17
  deriving DecidableEq, Repr

/-- What the host reads at any time, in any phase, without a command (R28, R236). -/
def Block.levels (b : Block) : Levels :=
  { phase := b.phase.code, ecode := b.ecode, eaddrLo := b.eaddrLo, eaddrHi := b.eaddrHi, nent := b.nent }

end Sys2Proof.Machine
end

