-- ==== Sys2Proof/Machine/Operands.lean ====
section
/-!
DEFINITION. Operand assembly and, with it, the second stage of decoding (spec/30_encoding.md R83, R85 to R89): from
the raw fields of a command to its typed operands, or none where the command is malformed.
-/

namespace Sys2Proof.Machine

/-- The width a WIDTH field names; 0 and 3 are reserved (R88). -/
def widthOf (v : BitVec 2) : Option Width :=
  match v.toNat with
  | 1 => some .one
  | 2 => some .two
  | _ => none

/-- The resource class a CLS field names; all four values are legal (R89). -/
def classOf (v : BitVec 2) : ResourceClass :=
  match v.toNat with
  | 0 => .coils
  | 1 => .discreteInputs
  | 2 => .holdingRegisters
  | _ => .inputRegisters

/-- The operands of the encoder: `VALUE = num / den`, SCALE, WIDTH and S (R86 to R88). -/
structure Scalar where
  /-- `sint_64(VNUM)` -/
  num : Int
  /-- `uint_16(VDEN)`, nonzero -/
  den : Nat
  /-- `uint_16(SC)` -/
  scale : Nat
  width : Width
  /-- S = 1 -/
  signed : Bool
  deriving DecidableEq, Repr

/-- The operands of a read or write request (R87, R89). -/
structure Request where
  cls : ResourceClass
  addr : Nat
  count : Nat
  deriving DecidableEq, Repr

/-- The encoder operands of an ENC or DEF: WIDTH in 1, 2 and VDEN nonzero (R85 to R88). -/
def scalarOperands (f : Fields) : Option Scalar :=
  match widthOf f.width with
  | none => none
  | some w =>
    if f.vden = 0 then none
    else some { num := f.vnum.toInt, den := f.vden.toNat, scale := f.sc.toNat, width := w, signed := f.s == 1 }

/-- The operands of an ENC: CLS, RSV and ADDR must be zero (R85). -/
def encOperands (f : Fields) : Option Scalar :=
  if f.cls = 0 ∧ f.rsv = 0 ∧ f.addr = 0 then scalarOperands f else none

/-- The operands of a DEF beside ADDR: CLS and RSV must be zero (R85). -/
def defOperands (f : Fields) : Option Scalar :=
  if f.cls = 0 ∧ f.rsv = 0 then scalarOperands f else none

/-- COMMIT has no operand: everything below OP must be zero (R85). -/
def commitOperands (f : Fields) : Option Unit :=
  if f = Fields.zero then some () else none

/-- The operands of a READ or WRITE: WIDTH, S, RSV, VDEN and VNUM must be zero and COUNT nonzero
(R85, R87, R89). -/
def requestOperands (f : Fields) : Option Request :=
  if f.width = 0 ∧ f.s = 0 ∧ f.rsv = 0 ∧ f.vden = 0 ∧ f.vnum = 0 ∧ f.sc ≠ 0 then
    some { cls := classOf f.cls, addr := f.addr.toNat, count := f.sc.toNat }
  else none

end Sys2Proof.Machine
end

