-- ==== Sys2Proof/Machine/Ops.lean ====
section
/-!
DEFINITION. The shared operations: the register space (spec/20_memory.md), the errors of the block, which are its
exceptions, and the return from them (spec/60_exceptions.md), the answer to a command and the host's port
(spec/70_reset_and_hazards.md).
-/

namespace Sys2Proof.Machine

/-! ### The register space -/

/-- The word listed for an address. -/
def lookup : Memory → Nat → Option Word
  | [], _ => none
  | (k, w) :: m, a => if k = a then some w else lookup m a

/-- `CELL[a]` for an unbounded address: an address above 0xFFFF names no register and so has no backing
value (R10, R21, R58). -/
def cellAt (m : Memory) (a : Nat) : Option Word :=
  if a < Config.registerCount then lookup m a else none

/-- `CELL[a] <- some(w)`, keeping the list in its one canonical form (R59). -/
def setCell : Memory → Nat → Word → Memory
  | [], a, w => [(a, w)]
  | (k, v) :: m, a, w =>
    if a < k then (a, w) :: (k, v) :: m
    else if a = k then (a, w) :: m
    else (k, v) :: setCell m a w

/-- Every listed address is above `lo` and the addresses rise strictly. -/
def risingFrom : Nat → Memory → Bool
  | _, [] => true
  | lo, (k, _) :: m => decide (lo ≤ k) && decide (k < Config.registerCount) && risingFrom (k + 1) m

/-- The canonical form of memory: addresses strictly rising and inside the register space (R50). An
unlisted address reads as `none`, and no listed word does, so equal maps are equal lists. -/
def Memory.wf (m : Memory) : Bool := risingFrom 0 m

/-- The result of `MemRead` (R57). -/
inductive ReadResult where
  | ok (ws : List Word)
  | notMapped (f : Nat)
  deriving DecidableEq, Repr

/-- `MemRead(addr, n)` (R10, R57): scan upward; the first address with no backing value ends the read and
no partial list is given. -/
def memRead (m : Memory) : Nat → Nat → ReadResult
  | _, 0 => .ok []
  | addr, n + 1 =>
    match cellAt m addr with
    | none => .notMapped addr
    | some w =>
      match memRead m (addr + 1) n with
      | .ok ws => .ok (w :: ws)
      | .notMapped f => .notMapped f

/-- `MemWrite(addr, n, ws)` with `n = len(ws)` (R10, R59): word i goes to `CELL[addr+i]`. -/
def memWrite (m : Memory) : Nat → List Word → Memory
  | _, [] => m
  | addr, w :: ws => memWrite (setCell m addr w) (addr + 1) ws

/-- The addresses of `[addr, addr+n)` whose cell is already `some`, rising: the set X of R145. -/
def takenCells (m : Memory) : Nat → Nat → List Nat
  | _, 0 => []
  | addr, n + 1 =>
    match cellAt m addr with
    | some _ => addr :: takenCells m (addr + 1) n
    | none => takenCells m (addr + 1) n

/-- `(min X, max X)` of R145, or none where X is empty. -/
def collision (m : Memory) (addr n : Nat) : Option (Nat × Nat) :=
  match takenCells m addr n with
  | [] => none
  | lo :: rest => some (lo, rest.getLastD lo)

/-! ### Success, errors and the return from them -/

/-- A command ends in OK with these address fields and words (R203). -/
def succeed (a0 a1 : Nat) (ws : List Word) (b : Block) : Block × Response :=
  (b, { status := .ok, a0 := BitVec.ofNat 17 a0, a1 := BitVec.ofNat 17 a1, words := ws })

/-- `raise <Status>(a0, a1)` (R10): the recoverable error. The response carries no word and the state is
exactly what it was (R202 to R204). -/
def raise (e : Status) (a0 a1 : Nat) (b : Block) : Block × Response :=
  (b, { status := e, a0 := BitVec.ofNat 17 a0, a1 := BitVec.ofNat 17 a1, words := [] })

/-- `fatal E(a0, a1)`, the entry into FAILED (R146): in one step PHASE, ECODE, EADDR_LO and EADDR_HI are
written, CELL and NENT are left, and the response carries no word. -/
def fatal (e : Status) (a0 a1 : Nat) (b : Block) : Block × Response :=
  ({ b with phase := .failed, ecode := e.code, eaddrLo := BitVec.ofNat 16 a0, eaddrHi := BitVec.ofNat 16 a1 },
   { status := e, a0 := BitVec.ofNat 17 a0, a1 := BitVec.ofNat 17 a1, words := [] })

/-- The reset input, the only return from FAILED and from SERVE (R209, R230, R231). It answers no command,
so it gives no response (R236). -/
def applyReset (s : State) : State := { s with block := Block.reset }

/-- A reserved opcode (R90, R205): FAILED_REFUSED in FAILED, else BAD_COMMAND, and no state change. -/
def reservedCommand (b : Block) : Block × Response :=
  match b.phase with
  | .failed => raise .failedRefused 0 0 b
  | _ => raise .badCommand 0 0 b

/-! ### The port -/

/-- A command's response leaves the block after those before it, in order (R65, R237). -/
def answer (s : State) (r : Block × Response) : State :=
  { s with block := r.1, responses := s.responses ++ [r.2] }

/-- The next event of the host, and the machine with that event taken. -/
def takeInput (s : State) : Option (HostEvent × State) :=
  match s.inputs with
  | [] => none
  | e :: rest => some (e, { s with inputs := rest })

/-- The host presents a command word before everything it was about to do. -/
def presentCommand (s : State) (w : CommandWord) : State :=
  { s with inputs := .command w :: s.inputs }

end Sys2Proof.Machine
end

