-- ==== Sys2Proof/Machine/Access.lean ====
section
/-!
DEFINITION. Serving the map: READ and WRITE (spec/42_access.md R170 to R178).
-/

namespace Sys2Proof.Machine

/-- The lookup of a request (R172, R173). The class selects nothing (R174). -/
def serveRequest (q : Request) (b : Block) : Block × Response :=
  match memRead b.cell q.addr q.count with
  | .notMapped f => raise .unmappedAddress f 0 b
  | .ok ws => succeed q.addr (q.addr + q.count - 1) ws b

/-- READ on the block (R170). -/
def readCommand (f : Fields) (b : Block) : Block × Response :=
  match b.phase with
  | .failed => raise .failedRefused 0 0 b
  | .build => raise .phaseError 0 0 b
  | .serve =>
    match requestOperands f with
    | none => raise .badCommand 0 0 b
    | some q => serveRequest q b

/-- READ (R170). -/
def execRead (f : Fields) (s : State) : Result :=
  .next (answer s (readCommand f s.block))

/-- WRITE on the block (R177): always rejected, and the map is not consulted. -/
def writeCommand (f : Fields) (b : Block) : Block × Response :=
  match b.phase with
  | .failed => raise .failedRefused 0 0 b
  | .build => raise .phaseError 0 0 b
  | .serve =>
    match requestOperands f with
    | none => raise .badCommand 0 0 b
    | some q => raise .unsupportedOperation q.addr 0 b

/-- WRITE (R177). -/
def execWrite (f : Fields) (s : State) : Result :=
  .next (answer s (writeCommand f s.block))

end Sys2Proof.Machine
end

