-- ==== Sys2Proof/Machine/Encoder.lean ====
section
/-!
DEFINITION. The fixed-point encoder and the ENC command (spec/40_encoder.md R110 to R123).
-/

namespace Sys2Proof.Machine

/-- `tdiv(n, d)` for d > 0: the quotient truncated toward zero (R10). -/
def tdiv (n : Int) (d : Nat) : Int :=
  if 0 ≤ n then n / (d : Int) else -((-n) / (d : Int))

/-- T, the scaled and truncated value: exact product, then truncation toward zero (R112, R113). -/
def truncated (n : Int) (d k : Nat) : Int := tdiv (n * (k : Int)) d

/-- `lo` of R114. -/
def rangeLo (w : Width) (signed : Bool) : Int :=
  if signed then -(2 ^ (16 * w.words - 1)) else 0

/-- `hi` of R114. -/
def rangeHi (w : Width) (signed : Bool) : Int :=
  if signed then 2 ^ (16 * w.words - 1) - 1 else 2 ^ (16 * w.words) - 1

/-- The words of `U = T mod 2^(16w)` (R115): U itself for width 1 (R116), the high word first for width 2
(R117). -/
def emit (w : Width) (t : Int) : List Word :=
  match w with
  | .one => [BitVec.ofInt 16 t]
  | .two => [(BitVec.ofInt 32 t).extractLsb' 16 16, (BitVec.ofInt 32 t).extractLsb' 0 16]

/-- The function `encode(n, d, k, w, s)` (R111 to R118); none is `range_error`. -/
def encodeValue (n : Int) (d k : Nat) (w : Width) (signed : Bool) : Option (List Word) :=
  if truncated n d k < rangeLo w signed ∨ rangeHi w signed < truncated n d k then none
  else some (emit w (truncated n d k))

/-- `encode` on assembled operands. -/
def encodeScalar (v : Scalar) : Option (List Word) :=
  encodeValue v.num v.den v.scale v.width v.signed

/-- `decode(ws, s)`, the inverse of the encoder: big-endian, two's complement when signed (R53, R119). -/
def decodeBigEndian (ws : List Word) (signed : Bool) : Option Int :=
  match ws with
  | [w] => some (if signed then w.toInt else (w.toNat : Int))
  | [hi, lo] => some (if signed then (hi ++ lo).toInt else ((hi ++ lo).toNat : Int))
  | _ => none

/-- ENC on the block (R110). -/
def encCommand (f : Fields) (b : Block) : Block × Response :=
  match b.phase with
  | .failed => raise .failedRefused 0 0 b
  | _ =>
    match encOperands f with
    | none => raise .badCommand 0 0 b
    | some v =>
      match encodeScalar v with
      | none => raise .cfgRange 0 0 b
      | some ws => succeed 0 0 ws b

/-- ENC (R110). -/
def execEnc (f : Fields) (s : State) : Result :=
  .next (answer s (encCommand f s.block))

end Sys2Proof.Machine
end

