-- ==== Sys2Proof/Machine/Build.lean ====
section
/-!
DEFINITION. Building the register map: DEF, COMMIT and the overlap checker (spec/41_build.md R140 to R153).
-/

namespace Sys2Proof.Machine

/-- Inserting an accepted entry: its words go to its cells and NENT counts it (R145, R27). -/
def insertEntry (addr : Nat) (ws : List Word) (b : Block) : Block :=
  { b with cell := memWrite b.cell addr ws, nent := b.nent + 1 }

/-- The checks of a well-formed DEF in BUILD, in their order (R140, R205): the address space (R143), the
encoder's range (R144), the overlap (R145). -/
def placeEntry (addr : Nat) (v : Scalar) (b : Block) : Block × Response :=
  if Config.registerCount < addr + v.width.words then fatal .cfgAddr addr addr b
  else
    match encodeScalar v with
    | none => fatal .cfgRange addr addr b
    | some ws =>
      match collision b.cell addr v.width.words with
      | some (lo, hi) => fatal .cfgOverlap lo hi b
      | none => succeed addr (addr + v.width.words - 1) ws (insertEntry addr ws b)

/-- DEF on the block (R140 to R146). -/
def defCommand (f : Fields) (b : Block) : Block × Response :=
  match b.phase with
  | .failed => raise .failedRefused 0 0 b
  | .serve => raise .phaseError 0 0 b
  | .build =>
    match defOperands f with
    | none => fatal .cfgSpec f.addr.toNat f.addr.toNat b
    | some v => placeEntry f.addr.toNat v b

/-- DEF (R140). -/
def execDefine (f : Fields) (s : State) : Result :=
  .next (answer s (defCommand f s.block))

/-- COMMIT on the block (R150, R151). -/
def commitCommand (f : Fields) (b : Block) : Block × Response :=
  match b.phase with
  | .failed => raise .failedRefused 0 0 b
  | .serve => raise .phaseError 0 0 b
  | .build =>
    match commitOperands f with
    | none => raise .badCommand 0 0 b
    | some _ => succeed 0 0 [] { b with phase := .serve }

/-- COMMIT (R150). -/
def execCommit (f : Fields) (s : State) : Result :=
  .next (answer s (commitCommand f s.block))

end Sys2Proof.Machine
end

