-- ==== Sys2Proof/Machine/Dispatch.lean ====
section
/-! DEFINITION. The meaning of every command: one arm per row of spec/opcode_table.json. -/

namespace Sys2Proof.Machine

def exec (i : Instr) (s : State) : Host.Outcome State Fault Refusal :=
  match i with
  | .enc f => Sys2Proof.Machine.execEnc f s
  | .define f => Sys2Proof.Machine.execDefine f s
  | .commit f => Sys2Proof.Machine.execCommit f s
  | .read f => Sys2Proof.Machine.execRead f s
  | .write f => Sys2Proof.Machine.execWrite f s

end Sys2Proof.Machine
end

