-- ==== Sys2Proof/Machine/Step.lean ====
section
/-! DEFINITION. One step of the machine: the host's next event (spec/00_scope.md R11, spec/70_reset_and_hazards.md
R234 to R238). -/

namespace Sys2Proof.Machine

/-- One step. A command is decoded and executed to its end, with one response (R11, R61, R237). A reserved
opcode is answered as R90 says. A reset puts the block in its reset state (R230). With no event left the
block waits, unchanged (notes/assumptions/2.md, DESIGN CHOICE). -/
def step (s : State) : Host.Outcome State Fault Refusal :=
  match takeInput s with
  | none => .next s
  | some (.reset, t) => .next (applyReset t)
  | some (.command w, t) =>
    match decode w with
    | .error _ => .next (answer t (reservedCommand t.block))
    | .ok i => exec i t

/-- The machine with this table word as the command the host presents next
(notes/assumptions/5.md). -/
def State.withFetchWord (s : State) (nbits w : Nat) : State := presentCommand s (tableWord nbits w)

end Sys2Proof.Machine
end

