-- ==== Sys2Proof/Machine/Adapter.lean ====
section
/-!
DEFINITION. The host's use of READ and WRITE: the SlaveAdapter's translation of a protocol request to a command
and of the response to a protocol answer (spec/42_access.md R179, spec/60_exceptions.md R200).
-/

namespace Sys2Proof.Machine

/-- The CLS field of a resource class (R89). -/
def ResourceClass.code : ResourceClass → BitVec 2
  | .coils => 0
  | .discreteInputs => 1
  | .holdingRegisters => 2
  | .inputRegisters => 3

/-- A protocol request of class c, start address a and count n (R179). -/
inductive AdapterRequest where
  | read (c : ResourceClass) (a n : Word)
  | write (c : ResourceClass) (a n : Word)
  deriving DecidableEq, Repr

/-- The command the adapter issues: `READ c, a, n` or `WRITE c, a, n` (R179). -/
def AdapterRequest.instr : AdapterRequest → Instr
  | .read c a n => .read { Fields.zero with cls := ResourceClass.code c, addr := a, sc := n }
  | .write c a n => .write { Fields.zero with cls := ResourceClass.code c, addr := a, sc := n }

/-- What the protocol answers (R179). -/
inductive ProtocolAnswer where
  /-- the words verbatim, as bytes -/
  | words (bs : List Byte)
  | illegalDataAddress
  | illegalFunction
  deriving DecidableEq, Repr

/-- The adapter's answer to a response (R179). The source gives none for a status that a well-behaved
host never causes (R211), so there is none here (notes/assumptions/12.md). -/
def adapterAnswer (r : Response) : Option ProtocolAnswer :=
  match r.status with
  | .ok => some (.words (bytesOfWords r.words))
  | .unmappedAddress => some .illegalDataAddress
  | .unsupportedOperation => some .illegalFunction
  | _ => none

end Sys2Proof.Machine
end

