-- ==== Sys2Proof/Machine/Assembler.lean ====
section
/-!
DEFINITION. The assembly language of the spec: operand syntax (spec/30_encoding.md R93) and the four
pseudo-instructions (R94). It is no part of a step: it makes the commands that a host sends. What R93 leaves
to an assembler (a number that does not fit its field, a hexadecimal number alone as a VALUE, signs, spaces,
the case of letters) is DESIGN CHOICE, notes/assumptions/11.md.
-/

namespace Sys2Proof.Machine

/-- A VALUE as written (R93). -/
inductive ValueLiteral where
  /-- `<VNUM>/<VDEN>` -/
  | ratio (vnum : Int) (vden : Nat)
  /-- a decimal literal: its digits as a signed integer, and how many of them are fractional -/
  | decimal (digits : Int) (k : Nat)
  deriving DecidableEq, Repr

/-- The integer as a 64-bit VNUM, where it fits (R86). -/
def vnumField (n : Int) : Option (BitVec 64) :=
  if -(2 ^ 63) ≤ n ∧ n < 2 ^ 63 then some (BitVec.ofInt 64 n) else none

/-- The number as a 16-bit field, where it fits (R81). -/
def field16 (n : Nat) : Option (BitVec 16) :=
  if n < 0x10000 then some (BitVec.ofNat 16 n) else none

/-- The VNUM and VDEN a literal stands for: a decimal with k fractional digits has VDEN = 10^k, k at most
4 (R93). -/
def ValueLiteral.fields : ValueLiteral → Option (BitVec 64 × BitVec 16)
  | .ratio n d =>
    match vnumField n, field16 d with
    | some v, some u => some (v, u)
    | _, _ => none
  | .decimal n k =>
    if k ≤ 4 then (vnumField n).map fun v => (v, BitVec.ofNat 16 (10 ^ k)) else none

/-- The WIDTH field of a width (R88). -/
def Width.code : Width → BitVec 2
  | .one => 1
  | .two => 2

/-- A line of assembly: the five commands (R93) and the four pseudo-instructions (R94). -/
inductive AsmLine where
  | enc (w : Width) (signed : Bool) (scale : Nat) (v : ValueLiteral)
  | define (addr : Nat) (w : Width) (signed : Bool) (scale : Nat) (v : ValueLiteral)
  | commit
  | read (c : ResourceClass) (addr count : Nat)
  | write (c : ResourceClass) (addr count : Nat)
  | defAna (addr : Nat) (w : Width) (v : ValueLiteral)
  | defRaw (addr : Nat) (n : Int)
  | defFlag (addr : Nat) (flag : Bool)
  | defSeq (addr : Nat) (ns : List Int)
  deriving DecidableEq, Repr

/-- One DEF of a pseudo-instruction of class b, c or d: `DEF <addr>, w1, u, x1, <n>/1` (R94). -/
def rawDef (addr : Nat) (n : Int) : AsmLine := .define addr .one false 1 (.ratio n 1)

/-- The DEFs of a sequence at consecutive addresses, in order (R94). -/
def seqDefs : Nat → List Int → List AsmLine
  | _, [] => []
  | addr, n :: ns => rawDef addr n :: seqDefs (addr + 1) ns

/-- The expansion of a line into lines of the five commands (R94). -/
def AsmLine.expand : AsmLine → List AsmLine
  | .defAna a w v => [.define a w false 100 v]
  | .defRaw a n => [rawDef a n]
  | .defFlag a flag => [rawDef a (if flag then 1 else 0)]
  | .defSeq a ns => seqDefs a ns
  | l => [l]

/-- The operand fields of an ENC or DEF line (R81, R93). -/
def scalarFields (addr : Nat) (w : Width) (signed : Bool) (scale : Nat) (v : ValueLiteral) : Option Fields :=
  match field16 addr, field16 scale, v.fields with
  | some a, some k, some (n, d) =>
    some { cls := 0, width := Width.code w, s := if signed then 1 else 0, rsv := 0, addr := a, sc := k, vden := d, vnum := n }
  | _, _, _ => none

/-- The operand fields of a READ or WRITE line (R81, R93). -/
def requestFields (c : ResourceClass) (addr count : Nat) : Option Fields :=
  match field16 addr, field16 count with
  | some a, some n => some { Fields.zero with cls := ResourceClass.code c, addr := a, sc := n }
  | _, _ => none

/-- The command of one line of the five commands; none where an operand does not fit its field. -/
def AsmLine.command : AsmLine → Option Instr
  | .enc w signed k v => (scalarFields 0 w signed k v).map .enc
  | .define a w signed k v => (scalarFields a w signed k v).map .define
  | .commit => some (.commit Fields.zero)
  | .read c a n => (requestFields c a n).map .read
  | .write c a n => (requestFields c a n).map .write
  | _ => none

/-- The commands of several lines, none if the assembler refuses one of them. -/
def commandsOf : List AsmLine → Option (List Instr)
  | [] => some []
  | l :: ls =>
    match AsmLine.command l, commandsOf ls with
    | some i, some is => some (i :: is)
    | _, _ => none

/-- The commands a line stands for; none where the assembler refuses the line, as for a sequence that
passes 0xFFFF (R94). -/
def assemble (l : AsmLine) : Option (List Instr) := commandsOf (AsmLine.expand l)

/-! ### The text of a line (R93) -/

/-- The pieces of a line of text. -/
inductive Token where
  | atom (cs : List Char)
  | comma
  | openList
  | closeList
  deriving DecidableEq, Repr

/-- The piece read so far, if any, before the pieces after it. -/
def flush (acc : List Char) (ts : List Token) : List Token :=
  if acc.isEmpty then ts else .atom acc.reverse :: ts

/-- The pieces of a line; a space only separates. -/
def tokens : List Char → List Char → List Token
  | acc, [] => flush acc []
  | acc, ' ' :: cs => flush acc (tokens [] cs)
  | acc, ',' :: cs => flush acc (.comma :: tokens [] cs)
  | acc, '[' :: cs => flush acc (.openList :: tokens [] cs)
  | acc, ']' :: cs => flush acc (.closeList :: tokens [] cs)
  | acc, c :: cs => tokens (c :: acc) cs

/-- The value of a digit in base 10 or 16. -/
def digitValue (base : Nat) (c : Char) : Option Nat :=
  let d :=
    if '0' ≤ c ∧ c ≤ '9' then c.toNat - '0'.toNat
    else if 'a' ≤ c ∧ c ≤ 'f' then c.toNat - 'a'.toNat + 10
    else if 'A' ≤ c ∧ c ≤ 'F' then c.toNat - 'A'.toNat + 10
    else base
  if d < base then some d else none

/-- The value of digits after those already read. -/
def digitsValue (base : Nat) : Nat → List Char → Option Nat
  | n, [] => some n
  | n, c :: cs =>
    match digitValue base c with
    | some d => digitsValue base (n * base + d) cs
    | none => none

/-- An unsigned number, decimal or `0x` hexadecimal (R93). -/
def parseNat : List Char → Option Nat
  | [] => none
  | '0' :: 'x' :: c :: cs => digitsValue 16 0 (c :: cs)
  | c :: cs => digitsValue 10 0 (c :: cs)

/-- A number that may carry a minus sign, before decimal or `0x` hexadecimal alike. R93 writes no sign before
a hexadecimal number: reading one is DESIGN CHOICE, safe, notes/assumptions/11.md. -/
def parseInt : List Char → Option Int
  | '-' :: cs => (parseNat cs).map fun n => -(n : Int)
  | cs => (parseNat cs).map fun n => (n : Int)

/-- The characters before and after the first `c`. -/
def splitAtChar (c : Char) : List Char → Option (List Char × List Char)
  | [] => none
  | d :: ds =>
    if d = c then some ([], ds) else (splitAtChar c ds).map fun p => (d :: p.1, p.2)

/-- The digits of a decimal literal with a point: digits on both sides of it. -/
def parsePoint (whole frac : List Char) : Option (Nat × Nat) :=
  if whole.isEmpty || frac.isEmpty then none
  else (digitsValue 10 0 (whole ++ frac)).map fun n => (n, frac.length)

/-- A VALUE (R93): a ratio, a decimal with a point, or an integer. R93 gives a VALUE as `<VNUM>/<VDEN>` or as a
decimal literal and does not say whether a `0x` number alone is one; it is read here as that VNUM over
VDEN = 1, so that `0x3C` is 60/1. DESIGN CHOICE, safe, notes/assumptions/11.md. -/
def parseValue (cs : List Char) : Option ValueLiteral :=
  match splitAtChar '/' cs with
  | some (n, d) =>
    match parseInt n, parseNat d with
    | some v, some u => some (.ratio v u)
    | _, _ => none
  | none =>
    match splitAtChar '.' cs with
    | none => (parseInt cs).map fun n => .decimal n 0
    | some ('-' :: whole, frac) => (parsePoint whole frac).map fun p => .decimal (-(p.1 : Int)) p.2
    | some (whole, frac) => (parsePoint whole frac).map fun p => .decimal (p.1 : Int) p.2

/-- `w1` or `w2` (R93). -/
def parseWidth (cs : List Char) : Option Width :=
  if cs = "w1".toList then some .one else if cs = "w2".toList then some .two else none

/-- `u` or `s` (R93). -/
def parseSigned (cs : List Char) : Option Bool :=
  if cs = "u".toList then some false else if cs = "s".toList then some true else none

/-- `x<n>` (R93). -/
def parseScale : List Char → Option Nat
  | 'x' :: cs => parseNat cs
  | _ => none

/-- `co`, `di`, `hr` or `ir` (R93). -/
def parseClass (cs : List Char) : Option ResourceClass :=
  if cs = "co".toList then some .coils
  else if cs = "di".toList then some .discreteInputs
  else if cs = "hr".toList then some .holdingRegisters
  else if cs = "ir".toList then some .inputRegisters
  else none

/-- `false` or `true` (R94). -/
def parseFlag (cs : List Char) : Option Bool :=
  if cs = "false".toList then some false else if cs = "true".toList then some true else none

/-- Operands separated by commas. -/
def commaSeparated : List Token → Option (List (List Char))
  | [.atom a] => some [a]
  | .atom a :: .comma :: ts => (commaSeparated ts).map fun as => a :: as
  | _ => none

/-- The numbers of a bracketed list. -/
def parseInts : List (List Char) → Option (List Int)
  | [] => some []
  | c :: cs =>
    match parseInt c, parseInts cs with
    | some n, some ns => some (n :: ns)
    | _, _ => none

/-- A line of a command with this mnemonic and these operands (R93, R94). -/
def parseCommand (m : List Char) (ops : List (List Char)) : Option AsmLine :=
  match ops with
  | [a, b] =>
    if m = "DEFRAW".toList then
      match parseNat a, parseInt b with
      | some x, some n => some (.defRaw x n)
      | _, _ => none
    else if m = "DEFFLAG".toList then
      match parseNat a, parseFlag b with
      | some x, some flag => some (.defFlag x flag)
      | _, _ => none
    else none
  | [a, b, c] =>
    if m = "READ".toList then
      match parseClass a, parseNat b, parseNat c with
      | some k, some x, some n => some (.read k x n)
      | _, _, _ => none
    else if m = "WRITE".toList then
      match parseClass a, parseNat b, parseNat c with
      | some k, some x, some n => some (.write k x n)
      | _, _, _ => none
    else if m = "DEFANA".toList then
      match parseNat a, parseWidth b, parseValue c with
      | some x, some w, some v => some (.defAna x w v)
      | _, _, _ => none
    else none
  | [a, b, c, d] =>
    if m = "ENC".toList then
      match parseWidth a, parseSigned b, parseScale c, parseValue d with
      | some w, some sg, some k, some v => some (.enc w sg k v)
      | _, _, _, _ => none
    else none
  | [a, b, c, d, e] =>
    if m = "DEF".toList then
      match parseNat a, parseWidth b, parseSigned c, parseScale d, parseValue e with
      | some x, some w, some sg, some k, some v => some (.define x w sg k v)
      | _, _, _, _, _ => none
    else none
  | _ => none

/-- `DEFSEQ <ADDR>, [n0, n1, ...]` after its mnemonic and address (R94). -/
def parseSequence (addr : List Char) (ts : List Token) : Option AsmLine :=
  match ts.reverse with
  | .closeList :: inside =>
    match commaSeparated inside.reverse with
    | none => none
    | some cs =>
      match parseNat addr, parseInts cs with
      | some x, some ns => some (.defSeq x ns)
      | _, _ => none
  | _ => none

/-- The line of assembly that a text is; none if it is none (R93, R94). -/
def parseLine (text : List Char) : Option AsmLine :=
  match tokens [] text with
  | [.atom m] => if m = "COMMIT".toList then some .commit else none
  | .atom m :: .atom a :: .comma :: .openList :: ts => if m = "DEFSEQ".toList then parseSequence a ts else none
  | .atom m :: ts =>
    match commaSeparated ts with
    | some ops => parseCommand m ops
    | none => none
  | _ => none

/-- The command words a line of assembly text stands for (R93 to R95). -/
def assembleText (text : String) : Option (List CommandWord) :=
  match parseLine text.toList with
  | none => none
  | some l => (assemble l).map fun is => is.map encode

end Sys2Proof.Machine
end

