-- ==== Sys2Proof/Machine/Transaction.lean ====
section
/-!
DEFINITION. The block at transaction level (spec/00_scope.md R11, spec/70_reset_and_hazards.md R234, R238): from a
state and a command to a state and a response, and runs of it; and build programs (spec/00_scope.md R6,
spec/41_build.md R149).
-/

namespace Sys2Proof.Machine

/-- The response and next state of an assigned command. -/
def transactInstr (i : Instr) (b : Block) : Block × Response :=
  match i with
  | .enc f => encCommand f b
  | .define f => defCommand f b
  | .commit f => commitCommand f b
  | .read f => readCommand f b
  | .write f => writeCommand f b

/-- "A model has one step function from (state, command) to (state, response)" (R234). -/
def transact (w : CommandWord) (b : Block) : Block × Response :=
  match decode w with
  | .error _ => reservedCommand b
  | .ok i => transactInstr i b

/-- The result of a finite list of commands: the final state and the responses in order (R238). -/
def runCommands : List CommandWord → Block → Block × List Response
  | [], b => (b, [])
  | w :: ws, b => ((runCommands ws (transact w b).1).1, (transact w b).2 :: (runCommands ws (transact w b).1).2)

/-- The COMMIT word (R84, R95). -/
def commitWord : CommandWord := encode (.commit Fields.zero)

/-- A build program: one DEF per spec, then COMMIT (R6, R12, R232). -/
def buildProgram (fs : List Fields) : List CommandWord :=
  fs.map (fun f => encode (.define f)) ++ [commitWord]

/-- The DEF of a known row of the map for the value `vnum / vden`: its address, width, signedness and scale are the
row's (R62), the value is the host's (R6). -/
def knownRowDef (r : Config.MapRow) (vnum : BitVec 64) (vden : BitVec 16) : Fields :=
  { cls := 0
    width := BitVec.ofNat 2 r.words
    s := if r.signed then 1 else 0
    rsv := 0
    addr := r.addr
    sc := BitVec.ofNat 16 r.scale
    vden := vden
    vnum := vnum }

/-- The words a DEF encodes to, where it is well-formed and in range (R111, R140). -/
def defWords (f : Fields) : Option (List Word) :=
  match defOperands f with
  | none => none
  | some v => encodeScalar v

end Sys2Proof.Machine
end

