-- ==== Sys2Proof/Safety.lean ====
section
/-!
DEFINITION. The terms in which statements speak: what truncation is (spec/40_encoder.md R112), the invariants of the
block (spec/10_state.md R36 with R25 to R27), the shape of a response (spec/60_exceptions.md R201, R203), the phase
table (R212), and the document's batch build (spec/41_build.md R149). Nothing here runs the machine.
-/

namespace Sys2Proof.Machine

/-- T is the truncation of `n × k / d` toward zero: `|T| <= |n × k / d| < |T| + 1`, and T has the sign of
`n × k` or is 0 (R112). -/
structure IsTruncated (n : Int) (d k : Nat) (t : Int) : Prop where
  notAbove : t.natAbs * d ≤ (n * (k : Int)).natAbs
  close : (n * (k : Int)).natAbs < (t.natAbs + 1) * d
  sign : 0 ≤ t * (n * (k : Int))

/-- The number of cells that are `some`, counted over the whole register space (R27, R36). -/
def someCount (m : Memory) : Nat :=
  ((List.range Config.registerCount).filter fun a => (cellAt m a).isSome).length

/-- The A0 column of R201 for the statuses that fix it without looking at the command. -/
def Status.a0IsZero : Status → Bool
  | .badCommand => true
  | .phaseError => true
  | .failedRefused => true
  | _ => false

/-- The A1 column of R201 for the statuses that fix it without looking at the command. -/
def Status.a1IsZero : Status → Bool
  | .unsupportedOperation => true
  | .unmappedAddress => true
  | .badCommand => true
  | .phaseError => true
  | .failedRefused => true
  | _ => false

/-- The shape of every response (R96, R201, R203). -/
structure Response.Shaped (r : Response) : Prop where
  dataOnlyWithOk : r.status ≠ .ok → r.words = []
  a0Bound : r.a0.toNat ≤ 0x10000
  a0InSpace : r.status ≠ .unmappedAddress → r.a0.toNat ≤ 0xFFFF
  a1Bound : r.a1.toNat ≤ 0xFFFF
  a0Zero : r.status.a0IsZero = true → r.a0 = 0
  a1Zero : r.status.a1IsZero = true → r.a1 = 0

/-- The invariants of the block over every run (R25 to R27, R36), with the canonical form of memory. -/
structure Block.Inv (b : Block) : Prop where
  canonical : Memory.wf b.cell = true
  failedIffError : b.phase = .failed ↔ b.ecode ≠ 0
  errorListed : b.ecode ≠ 0 → ∃ e : Status, e.isConfigurationError = true ∧ b.ecode = e.code
  clearBeforeError : b.ecode = 0 → b.eaddrLo = 0 ∧ b.eaddrHi = 0
  oneAddressUnlessOverlap : b.ecode ≠ Status.cfgOverlap.code → b.eaddrHi = b.eaddrLo
  adjacentAddresses : b.eaddrHi.toNat = b.eaddrLo.toNat ∨ b.eaddrHi.toNat = b.eaddrLo.toNat + 1
  overlapNamesTakenCells : b.ecode = Status.cfgOverlap.code →
    (cellAt b.cell b.eaddrLo.toNat).isSome = true ∧ (cellAt b.cell b.eaddrHi.toNat).isSome = true
  topNamed : b.ecode = Status.cfgAddr.code → b.eaddrLo = 0xFFFF
  countLow : b.nent.toNat ≤ someCount b.cell
  countHigh : someCount b.cell ≤ 2 * b.nent.toNat

/-- The invariant of the machine: the block's, and the shape of every response given. -/
structure State.Inv (s : State) : Prop where
  block : s.block.Inv
  shaped : ∀ r ∈ s.responses, r.Shaped

/-- Where the table of R212 says PHASE_ERROR. -/
def phaseRefuses : Opcode → Phase → Bool
  | .define, .serve => true
  | .commit, .serve => true
  | .read, .build => true
  | .write, .build => true
  | _, _ => false

/-- The first four checks of R205, in their order: the status they end a command with, or none where the
command's own checks decide. -/
def earlyStatus (w : CommandWord) (p : Phase) : Option Status :=
  if p = .failed then some .failedRefused
  else
    match decode w with
    | .error _ => some .badCommand
    | .ok i =>
      if phaseRefuses i.opcode p then some .phaseError
      else if i.wellFormed then none
      else if i.opcode = .define then some .cfgSpec
      else some .badCommand

/-- The range `[ADDR, ADDR+WIDTH)` of a DEF (R145). -/
def Covers (f : Fields) (a : Nat) : Prop := f.addr.toNat ≤ a ∧ a < f.addr.toNat + f.width.toNat

/-- The specs that the document's `build` accepts (R149): each well-formed, inside the address space and in
range, and no two ranges intersecting. -/
structure Acceptable (fs : List Fields) : Prop where
  wellFormed : ∀ f ∈ fs, (Instr.define f).wellFormed = true
  fits : ∀ f ∈ fs, f.addr.toNat + f.width.toNat ≤ 0x10000
  inRange : ∀ f ∈ fs, defWords f ≠ none
  disjoint : fs.Pairwise fun f g => ∀ a, ¬ (Covers f a ∧ Covers g a)

/-- "The union of all encoded word sequences at their declared addresses" (R149): some spec puts w at a. -/
def InUnion (fs : List Fields) (a : Nat) (w : Word) : Prop :=
  ∃ f ∈ fs, ∃ ws, defWords f = some ws ∧ f.addr.toNat ≤ a ∧ ws[a - f.addr.toNat]? = some w

/-- Every register a request names has a backing value (R172). -/
def AllMapped (m : Memory) (addr count : Nat) : Prop :=
  ∀ i, i < count → (cellAt m (addr + i)).isSome = true

/-- `x` is the lowest address of `[addr, addr+count)` with no backing value (R57, R173). -/
structure FirstGap (m : Memory) (addr count x : Nat) : Prop where
  above : addr ≤ x
  below : x < addr + count
  gap : cellAt m x = none
  lowest : ∀ a, addr ≤ a → a < x → (cellAt m a).isSome = true

/-- `lo` and `hi` are the lowest and highest taken cells of `[addr, addr+n)`: min X and max X of R145. -/
structure Colliding (m : Memory) (addr n lo hi : Nat) : Prop where
  loIn : addr ≤ lo ∧ lo < addr + n
  hiIn : addr ≤ hi ∧ hi < addr + n
  loTaken : (cellAt m lo).isSome = true
  hiTaken : (cellAt m hi).isSome = true
  between : ∀ a, addr ≤ a → a < addr + n → (cellAt m a).isSome = true → lo ≤ a ∧ a ≤ hi

/-- What a response says of the command it answers and of the block before it, status by status: the columns
"raised by", A0 and A1 of R201, with the words of R203. -/
def Response.Answers (r : Response) (d : Except DecodeError Instr) (b : Block) : Prop :=
  match r.status with
  | .ok =>
    (∃ f, d = .ok (.enc f) ∧ b.phase ≠ .failed ∧ r.a0 = 0 ∧ r.a1 = 0 ∧ r.words.length = f.width.toNat) ∨
    (∃ f, d = .ok (.define f) ∧ b.phase = .build ∧ r.a0.toNat = f.addr.toNat ∧
      r.a1.toNat = f.addr.toNat + f.width.toNat - 1 ∧ r.words.length = f.width.toNat) ∨
    (∃ f, d = .ok (.commit f) ∧ b.phase = .build ∧ r.a0 = 0 ∧ r.a1 = 0 ∧ r.words = []) ∨
    (∃ f, d = .ok (.read f) ∧ b.phase = .serve ∧ r.a0.toNat = f.addr.toNat ∧
      r.a1.toNat = f.addr.toNat + f.sc.toNat - 1 ∧ r.words.length = f.sc.toNat)
  | .unsupportedOperation =>
    ∃ f, d = .ok (.write f) ∧ b.phase = .serve ∧ r.a0.toNat = f.addr.toNat ∧ r.a1 = 0 ∧ r.words = []
  | .unmappedAddress =>
    ∃ f, d = .ok (.read f) ∧ b.phase = .serve ∧ FirstGap b.cell f.addr.toNat f.sc.toNat r.a0.toNat ∧
      r.a0.toNat ≤ 0x10000 ∧ r.a1 = 0 ∧ r.words = []
  | .cfgRange =>
    (∃ f, d = .ok (.enc f) ∧ b.phase ≠ .failed ∧ r.a0 = 0 ∧ r.a1 = 0 ∧ r.words = []) ∨
    (∃ f, d = .ok (.define f) ∧ b.phase = .build ∧ r.a0.toNat = f.addr.toNat ∧ r.a1.toNat = f.addr.toNat ∧
      r.words = [])
  | .cfgOverlap =>
    ∃ f, d = .ok (.define f) ∧ b.phase = .build ∧
      Colliding b.cell f.addr.toNat f.width.toNat r.a0.toNat r.a1.toNat ∧ r.words = []
  | .cfgAddr =>
    ∃ f, d = .ok (.define f) ∧ b.phase = .build ∧ f.addr = 0xFFFF ∧ r.a0 = 0xFFFF ∧ r.a1 = 0xFFFF ∧ r.words = []
  | .cfgSpec =>
    ∃ f, d = .ok (.define f) ∧ b.phase = .build ∧ (Instr.define f).wellFormed = false ∧
      r.a0.toNat = f.addr.toNat ∧ r.a1.toNat = f.addr.toNat ∧ r.words = []
  | .badCommand =>
    b.phase ≠ .failed ∧
      ((∃ op, d = .error (.reservedOpcode op)) ∨
        ∃ i, d = .ok i ∧ i.opcode ≠ .define ∧ i.wellFormed = false ∧ phaseRefuses i.opcode b.phase = false) ∧
      r.a0 = 0 ∧ r.a1 = 0 ∧ r.words = []
  | .phaseError =>
    (∃ i, d = .ok i ∧ phaseRefuses i.opcode b.phase = true) ∧ r.a0 = 0 ∧ r.a1 = 0 ∧ r.words = []
  | .failedRefused => b.phase = .failed ∧ r.a0 = 0 ∧ r.a1 = 0 ∧ r.words = []

/-- The block holds exactly these entries (R145, R27, R149): they are acceptable together, CELL is the union of their
words, and NENT is their number. -/
structure HoldsEntries (fs : List Fields) (b : Block) : Prop where
  acceptable : Acceptable fs
  cells : ∀ a x, cellAt b.cell a = some x ↔ InUnion fs a x
  count : b.nent = BitVec.ofNat 17 fs.length

/-- The response `(e, 0, 0, [])`. -/
def bare (e : Status) : Response := { status := e, a0 := 0, a1 := 0, words := [] }

/-- The response `(e, a0, a1, [])` with these addresses. -/
def atAddresses (e : Status) (a0 a1 : Nat) : Response :=
  { status := e, a0 := BitVec.ofNat 17 a0, a1 := BitVec.ofNat 17 a1, words := [] }

/-- The machine after an error that records nothing: one more response, all else as it was (R202, R204). -/
def afterError (s : State) (r : Response) : State := { s with responses := s.responses ++ [r] }

/-- The machine after a fatal error with this code and these addresses (R146): PHASE, ECODE, EADDR_LO and
EADDR_HI written, CELL and NENT as they were, one more response. -/
def afterFatal (s : State) (code : BitVec 8) (lo hi : Nat) (r : Response) : State :=
  { s with
    block := { s.block with
      phase := .failed, ecode := code, eaddrLo := BitVec.ofNat 16 lo, eaddrHi := BitVec.ofNat 16 hi }
    responses := s.responses ++ [r] }

end Sys2Proof.Machine
end

