-- ==== Sys2Proof/Certificates/Slice0/Obligations.lean ====
section
/-!
DEFINITION. The statements about the machine, for the provers. Each docstring names the rules of spec/ it formalises.
-/

open Sys2Proof Sys2Proof.Machine

/-! ### Encodings (spec/30_encoding.md) -/

/-- R81, R83, R84: the decoder reads back every command from its word, with every field at every value,
well-formed or not; a well-formed one passes both stages. -/
def Obligations.DecodeEncodeEveryCommand : Prop :=
  ∀ i : Instr, decode (encode i) = .ok i ∧ (i.wellFormed = true → decodeWellFormed (encode i) = .ok i)

/-- R83, R84, R90: every word of an assigned opcode is the word of the command read from it, and the assigned
opcodes are 1 to 5. -/
def Obligations.EncodeDecodeEveryAssignedWord : Prop :=
  ∀ w : CommandWord,
    (∀ i, decode w = .ok i → encode i = w) ∧
    ((∃ i, decode w = .ok i) ↔ 1 ≤ (w.extractLsb' 120 8).toNat ∧ (w.extractLsb' 120 8).toNat ≤ 5)

/-- R97 with R85: a decoder written from the opcode table's masks and constraints alone gives the same verdict,
reserved, malformed or well-formed, on every word. -/
def Obligations.TableDecoderAgreesWithFieldDecoder : Prop :=
  ∀ w : CommandWord, classifyByTable w = classify w

/-- R95: the six worked encodings, from the assembly text to the word, and the word back to the command. -/
def Obligations.WorkedEncodingsOfTheSpec : Prop :=
  assembleText "DEF 0x3000, w1, u, x100, 60" = some [0x0210300000640001000000000000003C] ∧
  channelWords 0x0210300000640001000000000000003C = [0x0210, 0x3000, 0x0064, 0x0001, 0x0000, 0x0000, 0x0000, 0x003C] ∧
  assembleText "DEF 0x3002, w2, u, x100, 1800" = some [0x02203002006400010000000000000708] ∧
  assembleText "ENC w1, s, x100, -12.345" = some [0x01180000006403E8FFFFFFFFFFFFCFC7] ∧
  (-12345 : Int) = (0xFFFFFFFFFFFFCFC7 : BitVec 64).toInt ∧ 1000 = (0x03E8 : BitVec 16).toNat ∧
  assembleText "COMMIT" = some [0x03000000000000000000000000000000] ∧
  assembleText "READ ir, 0x3000, 1" = some [0x04C03000000100000000000000000000] ∧
  assembleText "WRITE hr, 0x9000, 1" = some [0x05809000000100000000000000000000]

/-- R81, R84, R95: the words written out from the encoding decode to the commands they stand for, one per family. -/
def Obligations.WrittenOutWordsDecode : Prop :=
  decode 0x01180000006403E8FFFFFFFFFFFFCFC7 = .ok (.enc ⟨0, 1, 1, 0, 0, 100, 1000, 0xFFFFFFFFFFFFCFC7⟩) ∧
  decode 0x02203002006400010000000000000708 = .ok (.define ⟨0, 2, 0, 0, 0x3002, 100, 1, 1800⟩) ∧
  decode 0x03000000000000000000000000000000 = .ok (.commit ⟨0, 0, 0, 0, 0, 0, 0, 0⟩) ∧
  decode 0x04C03000000100000000000000000000 = .ok (.read ⟨3, 0, 0, 0, 0x3000, 1, 0, 0⟩) ∧
  decode 0x05809000000100000000000000000000 = .ok (.write ⟨2, 0, 0, 0, 0x9000, 1, 0, 0⟩) ∧
  decode 0x06000000000000000000000000000000 = .error (.reservedOpcode 0x06)

/-- R82, R53: the eight channel words of a command are its fields, most significant first; they carry the command
word back, and so do their bytes. -/
def Obligations.ChannelCarriesTheCommandWord : Prop :=
  (∀ w : CommandWord, commandOfWords (channelWords w) = .ok w ∧
    decodeBytes (bytesOfWords (channelWords w)) = decode w) ∧
  ∀ i : Instr, channelWords (encode i) =
    [ i.opcode.code ++ i.fields.cls ++ i.fields.width ++ i.fields.s ++ i.fields.rsv, i.fields.addr, i.fields.sc,
      i.fields.vden, i.fields.vnum.extractLsb' 48 16, i.fields.vnum.extractLsb' 32 16,
      i.fields.vnum.extractLsb' 16 16, i.fields.vnum.extractLsb' 0 16 ]

/-- R94: what each pseudo-instruction expands to; a sequence that passes 0xFFFF is refused. -/
def Obligations.PseudoInstructionsExpandToDefs : Prop :=
  (∀ a w v, assemble (.defAna a w v) = assemble (.define a w false 100 v)) ∧
  (∀ a n, assemble (.defRaw a n) = assemble (.define a .one false 1 (.ratio n 1))) ∧
  (∀ a, assemble (.defFlag a false) = assemble (.define a .one false 1 (.ratio 0 1))) ∧
  (∀ a, assemble (.defFlag a true) = assemble (.define a .one false 1 (.ratio 1 1))) ∧
  (∀ a ns, a + ns.length ≤ 0x10000 → (∀ n ∈ ns, -(2 ^ 63) ≤ n ∧ n < (2 ^ 63 : Int)) →
    ∃ is : List Instr, assemble (.defSeq a ns) = some is ∧ is.length = ns.length ∧
      ∀ j n i, ns[j]? = some n → is[j]? = some i →
        assemble (.define (a + j) .one false 1 (.ratio n 1)) = some [i]) ∧
  (∀ a ns, ns ≠ [] → 0x10000 < a + ns.length → assemble (.defSeq a ns) = none)

/-! ### The encoder (spec/40_encoder.md) -/

/-- R112: T is the truncated quotient of the exact product, and the one integer with `|T| <= |n × k / d| < |T| + 1`
and the sign of `n × k`. -/
def Obligations.TruncationIsTowardZero : Prop :=
  ∀ (n : Int) (d k : Nat), 0 < d →
    truncated n d k = (if 0 ≤ n * (k : Int) then (n * (k : Int)) / d else -(-(n * (k : Int)) / d)) ∧
    IsTruncated n d k (truncated n d k) ∧ ∀ t, IsTruncated n d k t → t = truncated n d k

/-- R114: the four ranges; outside them the result is `range_error` and no word is produced; the check is on T. -/
def Obligations.EncoderRangeCheck : Prop :=
  (∀ (n : Int) (d k : Nat), 0 < d →
    (encodeValue n d k .one false = none ↔ truncated n d k < 0 ∨ 65535 < truncated n d k) ∧
    (encodeValue n d k .two false = none ↔ truncated n d k < 0 ∨ 4294967295 < truncated n d k) ∧
    (encodeValue n d k .one true = none ↔ truncated n d k < -32768 ∨ 32767 < truncated n d k) ∧
    (encodeValue n d k .two true = none ↔ truncated n d k < -2147483648 ∨ 2147483647 < truncated n d k)) ∧
  truncated (-5) 1000 100 = 0 ∧ encodeValue (-5) 1000 100 .one false = some [0x0000]

/-- R115 to R118: the words are the two's-complement residue U of T, WIDTH of them, the high word first. -/
def Obligations.EncoderWordsAreTheBitPattern : Prop :=
  ∀ (n : Int) (d k : Nat) (w : Width) (s : Bool) (ws : List Word), 0 < d → encodeValue n d k w s = some ws →
    ∃ u : Nat, (u : Int) = truncated n d k % 2 ^ (16 * w.words) ∧
      (0 ≤ truncated n d k → (u : Int) = truncated n d k) ∧
      (truncated n d k < 0 → s = true ∧ (u : Int) = truncated n d k + 2 ^ (16 * w.words)) ∧
      (w = .one → ∃ x : Word, ws = [x] ∧ x.toNat = u) ∧
      (w = .two → ∃ hi lo : Word, ws = [hi, lo] ∧ hi.toNat = u / 65536 ∧ lo.toNat = u % 65536)

/-- R119: what `decode` reads from one word and from two, and that it reads back `tdiv(n × k, d)` from every list of
words the encoder gives. -/
def Obligations.EncodeDecodeRoundTrip : Prop :=
  (∀ a : Word, decodeBigEndian [a] false = some (a.toNat : Int) ∧
    decodeBigEndian [a] true = some (if a.toNat < 2 ^ 15 then (a.toNat : Int) else (a.toNat : Int) - 2 ^ 16)) ∧
  (∀ a b : Word, decodeBigEndian [a, b] false = some ((a.toNat * 65536 + b.toNat : Nat) : Int) ∧
    decodeBigEndian [a, b] true =
      some (if a.toNat * 65536 + b.toNat < 2 ^ 31 then ((a.toNat * 65536 + b.toNat : Nat) : Int)
        else ((a.toNat * 65536 + b.toNat : Nat) : Int) - 2 ^ 32)) ∧
  ∀ (n : Int) (d k : Nat) (w : Width) (s : Bool) (ws : List Word), 0 < d → encodeValue n d k w s = some ws →
    decodeBigEndian ws s = some (tdiv (n * (k : Int)) d)

/-- R120 (b), (e), (f), (g): the sign of T, symmetry, monotonicity in VALUE, equal fractions. -/
def Obligations.EncoderArithmeticLaws : Prop :=
  ∀ (n n' : Int) (d d' k : Nat), 0 < d → 0 < d' →
    ((n * (k : Int)).natAbs < d → truncated n d k = 0) ∧
    (d ≤ (n * (k : Int)).natAbs → (truncated n d k).sign = n.sign) ∧
    truncated (-n) d k = -truncated n d k ∧
    (n * (d' : Int) ≤ n' * (d : Int) → truncated n d k ≤ truncated n' d' k) ∧
    (n * (d' : Int) = n' * (d : Int) → truncated n d k = truncated n' d' k)

/-- R121: SCALE 0 and VALUE 0 and a product below one give zero words; a negative product of at least one is a
range error when unsigned; the signed minimum and -1 have their patterns. -/
def Obligations.EncoderCornerCases : Prop :=
  ∀ (n : Int) (d k : Nat) (w : Width) (s : Bool), 0 < d →
    encodeValue n d 0 w s = some (List.replicate w.words 0) ∧
    encodeValue 0 d k w s = some (List.replicate w.words 0) ∧
    ((n * (k : Int)).natAbs < d → encodeValue n d k w s = some (List.replicate w.words 0)) ∧
    (n < 0 → d ≤ (n * (k : Int)).natAbs → encodeValue n d k w false = none) ∧
    (truncated n d k = -32768 → encodeValue n d k .one true = some [0x8000]) ∧
    (truncated n d k = -2147483648 → encodeValue n d k .two true = some [0x8000, 0x0000]) ∧
    (truncated n d k = -1 → encodeValue n d k w true = some (List.replicate w.words 0xFFFF))

/-- R53, R117: the words of a width-2 entry are the high and low half of the 32-bit pattern, their bytes are its four
bytes from the highest down, and the bytes give the words back. -/
def Obligations.TwoWordEntryIsBigEndian : Prop :=
  ∀ (n : Int) (d k : Nat) (s : Bool) (ws : List Word), 0 < d → encodeValue n d k .two s = some ws →
    ∃ u : BitVec 32, u.toInt = (truncated n d k).bmod (2 ^ 32) ∧
      ws = [u.extractLsb' 16 16, u.extractLsb' 0 16] ∧
      bytesOfWords ws = [u.extractLsb' 24 8, u.extractLsb' 16 8, u.extractLsb' 8 8, u.extractLsb' 0 8] ∧
      wordsOfBytes (bytesOfWords ws) = some ws

/-! ### ENC (spec/40_encoder.md R110) -/

/-- R110 with R112, R114: a well-formed ENC in BUILD or SERVE whose truncated product T is in range answers OK with
the WIDTH words that decode to T, and changes nothing else. -/
def Obligations.EncAnswersTheEncodedWords : Prop :=
  ∀ (f : Fields) (s : State) (w : Width) (t : Int),
    s.block.phase ≠ .failed → (Instr.enc f).wellFormed = true → w.words = f.width.toNat →
    IsTruncated f.vnum.toInt f.vden.toNat f.sc.toNat t →
    rangeLo w (f.s == 1) ≤ t → t ≤ rangeHi w (f.s == 1) →
    ∃ ws : List Word, ws.length = f.width.toNat ∧ decodeBigEndian ws (f.s == 1) = some t ∧
      exec (.enc f) s = .next { s with responses := s.responses ++ [⟨.ok, 0, 0, ws⟩] }

/-- R110: the three errors of ENC in their order. None is fatal and none changes the block. -/
def Obligations.EncErrorsChangeNothing : Prop :=
  ∀ (f : Fields) (s : State),
    (s.block.phase = .failed → exec (.enc f) s = .next (afterError s (bare .failedRefused))) ∧
    (s.block.phase ≠ .failed → (Instr.enc f).wellFormed = false →
      exec (.enc f) s = .next (afterError s (bare .badCommand))) ∧
    ∀ (w : Width) (t : Int), s.block.phase ≠ .failed → (Instr.enc f).wellFormed = true → w.words = f.width.toNat →
      IsTruncated f.vnum.toInt f.vden.toNat f.sc.toNat t →
      (t < rangeLo w (f.s == 1) ∨ rangeHi w (f.s == 1) < t) →
      exec (.enc f) s = .next (afterError s (bare .cfgRange))

/-! ### DEF (spec/41_build.md R140 to R148) -/

/-- R140, R145: a well-formed DEF in BUILD that fits, is in range and meets only free cells answers OK with its first
and last address and its words; its cells take the words, word 0 at the lower address; every other cell reads as
before; NENT rises by one; the other registers stay. -/
def Obligations.DefInsertsTheEntry : Prop :=
  ∀ (f : Fields) (s : State) (w : Width) (t : Int),
    s.block.phase = .build → (Instr.define f).wellFormed = true → w.words = f.width.toNat →
    f.addr.toNat + f.width.toNat ≤ 0x10000 →
    IsTruncated f.vnum.toInt f.vden.toNat f.sc.toNat t →
    rangeLo w (f.s == 1) ≤ t → t ≤ rangeHi w (f.s == 1) →
    (∀ a, Covers f a → cellAt s.block.cell a = none) →
    ∃ (ws : List Word) (m : Memory),
      ws.length = f.width.toNat ∧ decodeBigEndian ws (f.s == 1) = some t ∧
      (∀ a, Covers f a → cellAt m a = ws[a - f.addr.toNat]?) ∧
      (∀ a, ¬ Covers f a → cellAt m a = cellAt s.block.cell a) ∧
      exec (.define f) s = .next
        { s with
          block := { s.block with cell := m, nent := s.block.nent + 1 }
          responses := s.responses ++
            [⟨.ok, BitVec.ofNat 17 f.addr.toNat, BitVec.ofNat 17 (f.addr.toNat + f.width.toNat - 1), ws⟩] }

/-- R140, R142 to R146: in BUILD the failing checks of DEF, the first that fails deciding: CFG_SPEC, CFG_ADDR,
CFG_RANGE, CFG_OVERLAP with the lowest and highest colliding address. Each is fatal: PHASE, ECODE, EADDR_LO and
EADDR_HI are written and all else, CELL and NENT among it, is as before. -/
def Obligations.DefFailuresAreFatal : Prop :=
  ∀ (f : Fields) (s : State), s.block.phase = .build →
    ((Instr.define f).wellFormed = false ↔
      f.width = 0 ∨ f.width = 3 ∨ f.vden = 0 ∨ f.cls ≠ 0 ∨ f.rsv ≠ 0) ∧
    ((Instr.define f).wellFormed = false →
      exec (.define f) s = .next
        (afterFatal s 0x13 f.addr.toNat f.addr.toNat (atAddresses .cfgSpec f.addr.toNat f.addr.toNat))) ∧
    ((Instr.define f).wellFormed = true → 0x10000 < f.addr.toNat + f.width.toNat →
      f.addr = 0xFFFF ∧ f.width = 2 ∧
      exec (.define f) s = .next (afterFatal s 0x12 0xFFFF 0xFFFF (atAddresses .cfgAddr 0xFFFF 0xFFFF))) ∧
    ∀ (w : Width) (t : Int), (Instr.define f).wellFormed = true → w.words = f.width.toNat →
      f.addr.toNat + f.width.toNat ≤ 0x10000 → IsTruncated f.vnum.toInt f.vden.toNat f.sc.toNat t →
      ((t < rangeLo w (f.s == 1) ∨ rangeHi w (f.s == 1) < t) →
        exec (.define f) s = .next
          (afterFatal s 0x10 f.addr.toNat f.addr.toNat (atAddresses .cfgRange f.addr.toNat f.addr.toNat))) ∧
      (rangeLo w (f.s == 1) ≤ t → t ≤ rangeHi w (f.s == 1) →
        ∀ lo hi, Colliding s.block.cell f.addr.toNat f.width.toNat lo hi →
          exec (.define f) s = .next (afterFatal s 0x11 lo hi (atAddresses .cfgOverlap lo hi)))

/-- R141: DEF is accepted only in phase BUILD. -/
def Obligations.DefOutsideBuildIsRefused : Prop :=
  ∀ (f : Fields) (s : State),
    (s.block.phase = .serve → exec (.define f) s = .next (afterError s (bare .phaseError))) ∧
    (s.block.phase = .failed → exec (.define f) s = .next (afterError s (bare .failedRefused)))

/-- R147 (a), (b), (c), (e), (f) with R145: after an accepted DEF, a second one that would otherwise be accepted is an
overlap exactly where the two ranges share an address, whatever the words. -/
def Obligations.OverlapIsSharingAnAddress : Prop :=
  ∀ (f g : Fields) (b : Block), (transactInstr (.define f) b).2.status = .ok →
    (Instr.define g).wellFormed = true → g.addr.toNat + g.width.toNat ≤ 0x10000 → defWords g ≠ none →
    (∀ a, Covers g a → cellAt b.cell a = none) →
    ((∃ a, Covers f a ∧ Covers g a) →
      (transactInstr (.define g) (transactInstr (.define f) b).1).2.status = .cfgOverlap) ∧
    ((∀ a, ¬ (Covers f a ∧ Covers g a)) →
      (transactInstr (.define g) (transactInstr (.define f) b).1).2.status = .ok)

/-! ### COMMIT (spec/41_build.md R150, R151) -/

/-- R150: COMMIT in every phase, well-formed or not; and the example, COMMIT right after reset. -/
def Obligations.CommitStartsServing : Prop :=
  (∀ (f : Fields) (s : State),
    (s.block.phase = .build → f = ⟨0, 0, 0, 0, 0, 0, 0, 0⟩ →
      exec (.commit f) s = .next
        { s with block := { s.block with phase := .serve }, responses := s.responses ++ [bare .ok] }) ∧
    (s.block.phase = .build → f ≠ ⟨0, 0, 0, 0, 0, 0, 0, 0⟩ →
      exec (.commit f) s = .next (afterError s (bare .badCommand))) ∧
    (s.block.phase = .serve → exec (.commit f) s = .next (afterError s (bare .phaseError))) ∧
    (s.block.phase = .failed → exec (.commit f) s = .next (afterError s (bare .failedRefused)))) ∧
  transact 0x03000000000000000000000000000000 Block.reset = ({ Block.reset with phase := .serve }, bare .ok)

/-! ### READ and WRITE (spec/42_access.md) -/

/-- R170, R172: a well-formed READ in SERVE answers OK if and only if all its registers have a backing value, and then
with the first and last address and the COUNT words in address order; nothing else changes. -/
def Obligations.ReadAnswersTheMappedWords : Prop :=
  ∀ (f : Fields) (s : State), s.block.phase = .serve → (Instr.read f).wellFormed = true →
    (∀ a0 a1 ws, exec (.read f) s = .next (afterError s ⟨.ok, a0, a1, ws⟩) →
      AllMapped s.block.cell f.addr.toNat f.sc.toNat) ∧
    (AllMapped s.block.cell f.addr.toNat f.sc.toNat →
    ∃ ws : List Word, ws.length = f.sc.toNat ∧
      (∀ i, i < f.sc.toNat → cellAt s.block.cell (f.addr.toNat + i) = ws[i]?) ∧
      f.addr.toNat + f.sc.toNat ≤ 0x10000 ∧
      exec (.read f) s = .next
        { s with responses := s.responses ++
            [⟨.ok, BitVec.ofNat 17 f.addr.toNat, BitVec.ofNat 17 (f.addr.toNat + f.sc.toNat - 1), ws⟩] })

/-- R173: a well-formed READ in SERVE that names a register without backing value answers UNMAPPED_ADDRESS with the
lowest such address, no word, and no change of state; the document's scenario with address 0x9999 is one case. -/
def Obligations.ReadOfAGapFaults : Prop :=
  (∀ (f : Fields) (s : State), s.block.phase = .serve → (Instr.read f).wellFormed = true →
    (¬ AllMapped s.block.cell f.addr.toNat f.sc.toNat → ∃ x, FirstGap s.block.cell f.addr.toNat f.sc.toNat x) ∧
    ∀ x, FirstGap s.block.cell f.addr.toNat f.sc.toNat x →
      x ≤ 0x10000 ∧ exec (.read f) s = .next (afterError s (atAddresses .unmappedAddress x 0))) ∧
  ∀ (c : BitVec 2) (s : State), s.block.phase = .serve → cellAt s.block.cell 0x9999 = none →
    exec (.read ⟨c, 0, 0, 0, 0x9999, 1, 0, 0⟩) s = .next (afterError s ⟨.unmappedAddress, 0x9999, 0, []⟩)

/-- R170, R171: READ outside SERVE, and a malformed READ in SERVE; none changes the block. -/
def Obligations.ReadRefusals : Prop :=
  ∀ (f : Fields) (s : State),
    (s.block.phase = .failed → exec (.read f) s = .next (afterError s (bare .failedRefused))) ∧
    (s.block.phase = .build → exec (.read f) s = .next (afterError s (bare .phaseError))) ∧
    (s.block.phase = .serve → (Instr.read f).wellFormed = false →
      exec (.read f) s = .next (afterError s (bare .badCommand)))

/-- R174, R51: the resource class selects nothing, in a READ or in a WRITE. -/
def Obligations.ResourceClassSelectsNothing : Prop :=
  ∀ (f : Fields) (c : BitVec 2) (s : State),
    exec (.read { f with cls := c }) s = exec (.read f) s ∧ exec (.write { f with cls := c }) s = exec (.write f) s

/-- R176, R60: in SERVE two READs of the same registers answer the same, whatever commands lie between them and
whatever their classes. -/
def Obligations.ReadsAreIdempotent : Prop :=
  ∀ (f : Fields) (c : BitVec 2) (b : Block) (between : List CommandWord), b.phase = .serve →
    (transactInstr (.read { f with cls := c }) (runCommands between (transactInstr (.read f) b).1).1).2 =
      (transactInstr (.read f) b).2

/-- R58: addresses do not wrap: a READ that runs past 0xFFFF answers UNMAPPED_ADDRESS, and a width-2 DEF at 0xFFFF is
the fatal CFG_ADDR. -/
def Obligations.AddressesDoNotWrap : Prop :=
  (∀ (f : Fields) (s : State), s.block.phase = .serve → (Instr.read f).wellFormed = true →
    0x10000 < f.addr.toNat + f.sc.toNat →
    ∃ x, f.addr.toNat ≤ x ∧ x ≤ 0x10000 ∧ cellAt s.block.cell x = none ∧
      exec (.read f) s = .next (afterError s (atAddresses .unmappedAddress x 0))) ∧
  (∀ m : Memory, cellAt m 0x10000 = none) ∧
  ∀ (f : Fields) (s : State), s.block.phase = .build → (Instr.define f).wellFormed = true →
    f.addr = 0xFFFF → f.width = 2 →
    exec (.define f) s = .next (afterFatal s 0x12 0xFFFF 0xFFFF (atAddresses .cfgAddr 0xFFFF 0xFFFF))

/-- R177: WRITE in every phase, well-formed or not: in SERVE a well-formed one answers UNSUPPORTED_OPERATION with ADDR
whatever the map holds; nothing ever changes but the response. -/
def Obligations.WriteIsAlwaysRejected : Prop :=
  ∀ (f : Fields) (s : State),
    (s.block.phase = .failed → exec (.write f) s = .next (afterError s (bare .failedRefused))) ∧
    (s.block.phase = .build → exec (.write f) s = .next (afterError s (bare .phaseError))) ∧
    (s.block.phase = .serve → (Instr.write f).wellFormed = false →
      exec (.write f) s = .next (afterError s (bare .badCommand))) ∧
    (s.block.phase = .serve → (Instr.write f).wellFormed = true →
      exec (.write f) s = .next (afterError s (atAddresses .unsupportedOperation f.addr.toNat 0)))

/-- R179, R211: the SlaveAdapter's protocol answers. A read request is answered with the words verbatim where every
register is mapped and with illegal data address otherwise; a write request with illegal function; in SERVE a
request of at least one register always has an answer and changes nothing. -/
def Obligations.AdapterAnswersEveryRequest : Prop :=
  ∀ (b : Block) (c : ResourceClass) (a n : Word), b.phase = .serve → n ≠ 0 →
    (AllMapped b.cell a.toNat n.toNat → ∃ ws : List Word,
      ws.length = n.toNat ∧ (∀ i, i < n.toNat → cellAt b.cell (a.toNat + i) = ws[i]?) ∧
      adapterAnswer (transact (encode (AdapterRequest.instr (.read c a n))) b).2 = some (.words (bytesOfWords ws))) ∧
    (¬ AllMapped b.cell a.toNat n.toNat →
      adapterAnswer (transact (encode (AdapterRequest.instr (.read c a n))) b).2 = some .illegalDataAddress) ∧
    adapterAnswer (transact (encode (AdapterRequest.instr (.write c a n))) b).2 = some .illegalFunction ∧
    (transact (encode (AdapterRequest.instr (.read c a n))) b).1 = b ∧
    (transact (encode (AdapterRequest.instr (.write c a n))) b).1 = b

/-- R54, R140, R145, R150, R172: the words an accepted DEF answers with are what READ returns after COMMIT, whole or
one register at a time. -/
def Obligations.ReadReturnsWhatDefAnswered : Prop :=
  ∀ (b : Block) (f : Fields) (c : BitVec 2), (transactInstr (.define f) b).2.status = .ok →
    (runCommands [commitWord, encode (.read ⟨c, 0, 0, 0, f.addr, f.width.setWidth 16, 0, 0⟩)]
        (transactInstr (.define f) b).1).2 =
      [bare .ok, (transactInstr (.define f) b).2] ∧
    ∀ i, i < f.width.toNat → ∃ x : Word, (transactInstr (.define f) b).2.words[i]? = some x ∧
      (runCommands [commitWord, encode (.read ⟨c, 0, 0, 0, BitVec.ofNat 16 (f.addr.toNat + i), 1, 0, 0⟩)]
          (transactInstr (.define f) b).1).2 =
        [bare .ok, ⟨.ok, BitVec.ofNat 17 (f.addr.toNat + i), BitVec.ofNat 17 (f.addr.toNat + i), [x]⟩]

/-! ### The machine -/

/-- R11, R234: a step on a command word that decodes to a command runs that command's meaning, with the word taken from
the host's inputs. -/
def Obligations.StepRunsTheDecodedCommand : Prop :=
  ∀ (s : State) (w : CommandWord) (rest : List HostEvent) (i : Instr),
    s.inputs = .command w :: rest → decode w = .ok i → step s = exec i { s with inputs := rest }

/-- R234, R237: every step answers with a next state; a command's step takes exactly that command, gives exactly one
response after those before it, and has the block's transaction as its effect. With no input left the machine
waits unchanged (the model's choice, notes/assumptions/2.md). -/
def Obligations.EveryStepAnswers : Prop :=
  ∀ s : State,
    (s.inputs = [] → step s = .next s) ∧
    (∀ rest, s.inputs = .reset :: rest → step s = .next { s with block := Block.reset, inputs := rest }) ∧
    ∀ w rest, s.inputs = .command w :: rest →
      step s = .next
        { block := (transact w s.block).1
          inputs := rest
          responses := s.responses ++ [(transact w s.block).2] }

/-- R238: running the host's interface over a list of commands is the block's run of that list: its final state, and
its responses in the order of the commands. -/
def Obligations.HostRunIsTheTransactionRun : Prop :=
  ∀ (ws : List CommandWord) (rest : List HostEvent) (s : State), s.inputs = ws.map .command ++ rest →
    Host.Core.run Sys2Proof.core ws.length s = .next
      { block := (runCommands ws s.block).1
        inputs := rest
        responses := s.responses ++ (runCommands ws s.block).2 }

/-- R35: the reset state, and the reset input from any state (R230). -/
def Obligations.ResetValues : Prop :=
  (∀ a, cellAt State.reset.block.cell a = none) ∧
  State.reset.block.phase = .build ∧ Phase.code .build = 0 ∧ State.reset.block.ecode = 0x00 ∧
  State.reset.block.eaddrLo = 0x0000 ∧ State.reset.block.eaddrHi = 0x0000 ∧ State.reset.block.nent = 0 ∧
  ∀ (s : State) (rest : List HostEvent), s.inputs = .reset :: rest →
    step s = .next { block := State.reset.block, inputs := rest, responses := s.responses }

/-- R28 with R24 to R27: the level outputs show PHASE by its number, which is never 3, and the four other registers as
they are, in every state. -/
def Obligations.LevelOutputsShowTheRegisters : Prop :=
  ∀ b : Block,
    (b.levels.phase = 0 ↔ b.phase = .build) ∧ (b.levels.phase = 1 ↔ b.phase = .serve) ∧
    (b.levels.phase = 2 ↔ b.phase = .failed) ∧ b.levels.phase ≠ 3 ∧ b.levels.ecode = b.ecode ∧
    b.levels.eaddrLo = b.eaddrLo ∧ b.levels.eaddrHi = b.eaddrHi ∧ b.levels.nent = b.nent

/-- R90: a reserved opcode answers FAILED_REFUSED in FAILED and BAD_COMMAND else, and changes no state. -/
def Obligations.ReservedOpcodesAreRefused : Prop :=
  ∀ (s : State) (w : CommandWord) (rest : List HostEvent), s.inputs = .command w :: rest →
    ((w.extractLsb' 120 8).toNat = 0 ∨ 6 ≤ (w.extractLsb' 120 8).toNat) →
    (s.block.phase = .failed →
      step s = .next { s with inputs := rest, responses := s.responses ++ [bare .failedRefused] }) ∧
    (s.block.phase ≠ .failed →
      step s = .next { s with inputs := rest, responses := s.responses ++ [bare .badCommand] })

/-- R206, R36 (d): in FAILED every command word answers FAILED_REFUSED and changes no item of state, over any run; and
FAILED is entered only by a failing DEF in BUILD, which saves ECODE, EADDR_LO and EADDR_HI and leaves CELL and
NENT. -/
def Obligations.FailedRefusesEverything : Prop :=
  (∀ (ws : List CommandWord) (b : Block), b.phase = .failed →
    runCommands ws b = (b, List.replicate ws.length (bare .failedRefused))) ∧
  ∀ (w : CommandWord) (b : Block), b.phase ≠ .failed → (transact w b).1.phase = .failed →
    ∃ f, decode w = .ok (.define f) ∧ b.phase = .build ∧ (transact w b).2.status.isConfigurationError = true ∧
      (transact w b).1.ecode = (transact w b).2.status.code ∧
      (transact w b).1.eaddrLo = (transact w b).2.a0.setWidth 16 ∧
      (transact w b).1.eaddrHi = (transact w b).2.a1.setWidth 16 ∧
      (transact w b).1.cell = b.cell ∧ (transact w b).1.nent = b.nent

/-- R36 (c), R23: in SERVE no run of commands changes the block. -/
def Obligations.ServeIsImmutable : Prop :=
  ∀ (ws : List CommandWord) (b : Block), b.phase = .serve → (runCommands ws b).1 = b

/-- R213: the phase graph. -/
def Obligations.PhaseGraph : Prop :=
  (∀ (w : CommandWord) (b : Block),
    (b.phase = .serve → (transact w b).1.phase = .serve) ∧
    (b.phase = .failed → (transact w b).1.phase = .failed) ∧
    (b.phase = .build →
      ((transact w b).1.phase = .serve ↔ w = commitWord) ∧
      ((transact w b).1.phase = .failed ↔
        ∃ f, decode w = .ok (.define f) ∧ (transact w b).2.status ≠ .ok))) ∧
  ∀ s rest, s.inputs = .reset :: rest → ∃ t, step s = .next t ∧ t.block.phase = .build

/-- R205, R212, R91: the order of the first four checks: FAILED, reserved opcode, phase, well-formedness. Where one of
them fails it alone decides the status; where none does, the status is none of theirs. -/
def Obligations.FirstFailingCheckDecides : Prop :=
  ∀ (w : CommandWord) (b : Block),
    match earlyStatus w b.phase with
    | some e => (transact w b).2.status = e
    | none =>
      (transact w b).2.status ≠ .failedRefused ∧ (transact w b).2.status ≠ .badCommand ∧
        (transact w b).2.status ≠ .phaseError ∧ (transact w b).2.status ≠ .cfgSpec

/-- R202, R204, R207: an error that is not a DEF's in BUILD changes nothing; a DEF's in BUILD writes ECODE with its
status, EADDR_LO and EADDR_HI with the low 16 bits of A0 and A1, PHASE with FAILED, and nothing else. -/
def Obligations.ErrorsRecordOnlyWhatIsFatal : Prop :=
  ∀ (w : CommandWord) (b : Block), (transact w b).2.status ≠ .ok →
    ((∃ f, decode w = .ok (.define f)) ∧ b.phase = .build →
      (transact w b).2.status.isConfigurationError = true ∧
      (transact w b).1 =
        { b with
          phase := .failed
          ecode := (transact w b).2.status.code
          eaddrLo := (transact w b).2.a0.setWidth 16
          eaddrHi := (transact w b).2.a1.setWidth 16 }) ∧
    (¬ ((∃ f, decode w = .ok (.define f)) ∧ b.phase = .build) → (transact w b).1 = b)

/-- R203 with the columns of R201: WORDS, A0 and A1 of every response, by its status, the command that raised it and
the block before it: the first failing address of a READ, the lowest and highest colliding address of a DEF. -/
def Obligations.ResponseFieldsByStatus : Prop :=
  ∀ (w : CommandWord) (b : Block), (transact w b).2.Answers (decode w) b

/-- R201: the status numbers. -/
def Obligations.StatusNumbers : Prop :=
  Status.code .ok = 0x00 ∧ Status.code .unsupportedOperation = 0x01 ∧ Status.code .unmappedAddress = 0x02 ∧
  Status.code .cfgRange = 0x10 ∧ Status.code .cfgOverlap = 0x11 ∧ Status.code .cfgAddr = 0x12 ∧
  Status.code .cfgSpec = 0x13 ∧ Status.code .badCommand = 0x20 ∧ Status.code .phaseError = 0x21 ∧
  Status.code .failedRefused = 0x7F ∧ ∀ e e' : Status, e.code = e'.code → e = e'

/-- R29, R148, R23, R27: the frame of every instruction. ENC, READ and WRITE change no item of the block; COMMIT only
PHASE; DEF no cell outside `[ADDR, ADDR+WIDTH)`, no cell at all and no NENT where it fails, NENT by one and no other
register where it answers OK. Every one takes nothing from the inputs and adds one response. -/
def Obligations.FrameOfEveryInstruction : Prop :=
  ∀ (i : Instr) (s t : State), exec i s = .next t →
    t.inputs = s.inputs ∧
    ∃ r, t.responses = s.responses ++ [r] ∧
      match i with
      | .enc _ => t.block = s.block
      | .read _ => t.block = s.block
      | .write _ => t.block = s.block
      | .commit _ => t.block = { s.block with phase := t.block.phase }
      | .define f =>
        (∀ a, ¬ Covers f a → cellAt t.block.cell a = cellAt s.block.cell a) ∧
        (r.status ≠ .ok → t.block.cell = s.block.cell ∧ t.block.nent = s.block.nent) ∧
        (r.status = .ok →
          t.block = { s.block with cell := t.block.cell, nent := s.block.nent + 1 })

/-- R23, R36 (e): over any run of commands a cell that holds a word keeps that word. -/
def Obligations.MappedCellsKeepTheirWords : Prop :=
  ∀ (ws : List CommandWord) (b : Block) (a : Nat) (x : Word),
    cellAt b.cell a = some x → cellAt (runCommands ws b).1.cell a = some x

/-- R22: the cells are the whole of the map: two maps in canonical form that read alike at every address are equal (the
canonical list is the model's choice, notes/assumptions/3.md). -/
def Obligations.EqualCellsAreEqualMaps : Prop :=
  ∀ m m' : Memory, Memory.wf m = true → Memory.wf m' = true → (∀ a, cellAt m a = cellAt m' a) → m = m'

/-- R25 to R27, R36 (a), (f): the invariants of the block, and the shape of every response given, hold after reset. -/
def Obligations.InvariantsHoldAfterReset : Prop := State.reset.Inv

/-- R25 to R27, R36 (a), (f), R203: every step keeps the invariants, from every state that has them. -/
def Obligations.EveryStepKeepsTheInvariants : Prop :=
  ∀ s t : State, s.Inv → step s = .next t → t.Inv

/-! ### The document's batch build (spec/41_build.md R149) and the known map (spec/20_memory.md R62) -/

/-- R62, R145: the eight known rows are unsigned and their entries do not overlap, so whatever values the host gives
them, if each is in range the eight DEFs are an acceptable build. -/
def Obligations.KnownRowsAreAnAcceptableBuild : Prop :=
  (∀ r ∈ Config.knownMap, r.signed = false) ∧
  ∀ (num : Config.MapRow → BitVec 64) (den : Config.MapRow → BitVec 16),
    (∀ r ∈ Config.knownMap,
      (knownRowDef r (num r) (den r)).s = 0 ∧
      (den r ≠ 0 → (Instr.define (knownRowDef r (num r) (den r))).wellFormed = true)) ∧
    ((∀ r ∈ Config.knownMap, defWords (knownRowDef r (num r) (den r)) ≠ none) →
      Acceptable (Config.knownMap.map fun r => knownRowDef r (num r) (den r)))

/-- R35, R149: the reset block holds no entry. -/
def Obligations.ResetHoldsNoEntry : Prop := HoldsEntries [] State.reset.block

/-- R23, R27, R145, R149: from every state whose block holds exactly the entries `fs`, every step leaves a block that
holds exactly them and, where the step runs a DEF that is accepted, that one more; a reset leaves none. -/
def Obligations.EveryStepKeepsTheUnionOfEntries : Prop :=
  ∀ (fs : List Fields) (s t : State), HoldsEntries fs s.block → step s = .next t →
    (s.inputs = [] → HoldsEntries fs t.block) ∧
    (∀ rest, s.inputs = .reset :: rest → HoldsEntries [] t.block) ∧
    ∀ w rest, s.inputs = .command w :: rest →
      (∀ f, decode w = .ok (.define f) → (transact w s.block).2.status = .ok → HoldsEntries (fs ++ [f]) t.block) ∧
      ((∀ f, decode w = .ok (.define f) → (transact w s.block).2.status ≠ .ok) → HoldsEntries fs t.block)

/-- R149, the accepting half: after reset, a build program of acceptable specs answers OK to every DEF and to COMMIT,
ends in SERVE with no error, counts its entries, and CELL is the union of the encoded words at their addresses. -/
def Obligations.AcceptableBuildIsServed : Prop :=
  ∀ fs : List Fields, Acceptable fs →
    (∀ r ∈ (runCommands (buildProgram fs) Block.reset).2, r.status = .ok) ∧
    (runCommands (buildProgram fs) Block.reset).1.phase = .serve ∧
    (runCommands (buildProgram fs) Block.reset).1.ecode = 0 ∧
    (runCommands (buildProgram fs) Block.reset).1.nent = BitVec.ofNat 17 fs.length ∧
    ∀ a x, cellAt (runCommands (buildProgram fs) Block.reset).1.cell a = some x ↔ InUnion fs a x

/-- R149, the refusing half: after reset, a build program of specs that are not acceptable ends in FAILED, its COMMIT is
refused, and every command after it is refused too, so that no READ is ever answered with data. -/
def Obligations.UnacceptableBuildNeverServes : Prop :=
  ∀ fs : List Fields, ¬ Acceptable fs →
    (runCommands (buildProgram fs) Block.reset).1.phase = .failed ∧
    (runCommands (buildProgram fs) Block.reset).2.getLast? = some (bare .failedRefused) ∧
    (∃ r ∈ (runCommands (buildProgram fs) Block.reset).2, r.status.isConfigurationError = true) ∧
    ∀ w, (transact w (runCommands (buildProgram fs) Block.reset).1).2 = bare .failedRefused

/-- R149, R153: the order of the DEFs of an acceptable build is free: every order ends in the same block. -/
def Obligations.BuildOrderIsFree : Prop :=
  ∀ fs gs : List Fields, fs.Perm gs → Acceptable fs →
    (runCommands (buildProgram fs) Block.reset).1 = (runCommands (buildProgram gs) Block.reset).1
end

