-- ==== Sys2Proof/Laws/State.lean ====
section
/-!
SUPPORT. The small lemmas of the state: one per field and update of the shared operations of Machine/Ops.lean, so
that no proof unfolds a record update.
-/

namespace Sys2Proof.Machine

/-! ### `answer` -/

@[simp] theorem answer_block (s : State) (r : Block × Response) : (answer s r).block = r.1 := rfl
@[simp] theorem answer_inputs (s : State) (r : Block × Response) : (answer s r).inputs = s.inputs := rfl
@[simp] theorem answer_responses (s : State) (r : Block × Response) :
    (answer s r).responses = s.responses ++ [r.2] := rfl

/-! ### `applyReset` -/

@[simp] theorem applyReset_block (s : State) : (applyReset s).block = Block.reset := rfl
@[simp] theorem applyReset_inputs (s : State) : (applyReset s).inputs = s.inputs := rfl
@[simp] theorem applyReset_responses (s : State) : (applyReset s).responses = s.responses := rfl

/-! ### `presentCommand` -/

@[simp] theorem presentCommand_block (s : State) (w : CommandWord) : (presentCommand s w).block = s.block := rfl
@[simp] theorem presentCommand_inputs (s : State) (w : CommandWord) :
    (presentCommand s w).inputs = .command w :: s.inputs := rfl
@[simp] theorem presentCommand_responses (s : State) (w : CommandWord) :
    (presentCommand s w).responses = s.responses := rfl

/-! ### `Block.reset` and `State.reset` -/

@[simp] theorem Block.reset_cell : Block.reset.cell = [] := rfl
@[simp] theorem Block.reset_phase : Block.reset.phase = .build := rfl
@[simp] theorem Block.reset_ecode : Block.reset.ecode = 0 := rfl
@[simp] theorem Block.reset_eaddrLo : Block.reset.eaddrLo = 0 := rfl
@[simp] theorem Block.reset_eaddrHi : Block.reset.eaddrHi = 0 := rfl
@[simp] theorem Block.reset_nent : Block.reset.nent = 0 := rfl
@[simp] theorem State.reset_block : State.reset.block = Block.reset := rfl
@[simp] theorem State.reset_inputs : State.reset.inputs = [] := rfl
@[simp] theorem State.reset_responses : State.reset.responses = [] := rfl

/-! ### `raise` -/

@[simp] theorem raise_block (e : Status) (a0 a1 : Nat) (b : Block) : (raise e a0 a1 b).1 = b := rfl
@[simp] theorem raise_status (e : Status) (a0 a1 : Nat) (b : Block) : (raise e a0 a1 b).2.status = e := rfl
@[simp] theorem raise_a0 (e : Status) (a0 a1 : Nat) (b : Block) :
    (raise e a0 a1 b).2.a0 = BitVec.ofNat 17 a0 := rfl
@[simp] theorem raise_a1 (e : Status) (a0 a1 : Nat) (b : Block) :
    (raise e a0 a1 b).2.a1 = BitVec.ofNat 17 a1 := rfl
@[simp] theorem raise_words (e : Status) (a0 a1 : Nat) (b : Block) : (raise e a0 a1 b).2.words = [] := rfl

/-! ### `succeed` -/

@[simp] theorem succeed_block (a0 a1 : Nat) (ws : List Word) (b : Block) : (succeed a0 a1 ws b).1 = b := rfl
@[simp] theorem succeed_status (a0 a1 : Nat) (ws : List Word) (b : Block) :
    (succeed a0 a1 ws b).2.status = .ok := rfl
@[simp] theorem succeed_a0 (a0 a1 : Nat) (ws : List Word) (b : Block) :
    (succeed a0 a1 ws b).2.a0 = BitVec.ofNat 17 a0 := rfl
@[simp] theorem succeed_a1 (a0 a1 : Nat) (ws : List Word) (b : Block) :
    (succeed a0 a1 ws b).2.a1 = BitVec.ofNat 17 a1 := rfl
@[simp] theorem succeed_words (a0 a1 : Nat) (ws : List Word) (b : Block) :
    (succeed a0 a1 ws b).2.words = ws := rfl

/-! ### `fatal` -/

@[simp] theorem fatal_cell (e : Status) (a0 a1 : Nat) (b : Block) : (fatal e a0 a1 b).1.cell = b.cell := rfl
@[simp] theorem fatal_phase (e : Status) (a0 a1 : Nat) (b : Block) : (fatal e a0 a1 b).1.phase = .failed := rfl
@[simp] theorem fatal_ecode (e : Status) (a0 a1 : Nat) (b : Block) : (fatal e a0 a1 b).1.ecode = e.code := rfl
@[simp] theorem fatal_eaddrLo (e : Status) (a0 a1 : Nat) (b : Block) :
    (fatal e a0 a1 b).1.eaddrLo = BitVec.ofNat 16 a0 := rfl
@[simp] theorem fatal_eaddrHi (e : Status) (a0 a1 : Nat) (b : Block) :
    (fatal e a0 a1 b).1.eaddrHi = BitVec.ofNat 16 a1 := rfl
@[simp] theorem fatal_nent (e : Status) (a0 a1 : Nat) (b : Block) : (fatal e a0 a1 b).1.nent = b.nent := rfl
@[simp] theorem fatal_status (e : Status) (a0 a1 : Nat) (b : Block) : (fatal e a0 a1 b).2.status = e := rfl
@[simp] theorem fatal_a0 (e : Status) (a0 a1 : Nat) (b : Block) :
    (fatal e a0 a1 b).2.a0 = BitVec.ofNat 17 a0 := rfl
@[simp] theorem fatal_a1 (e : Status) (a0 a1 : Nat) (b : Block) :
    (fatal e a0 a1 b).2.a1 = BitVec.ofNat 17 a1 := rfl
@[simp] theorem fatal_words (e : Status) (a0 a1 : Nat) (b : Block) : (fatal e a0 a1 b).2.words = [] := rfl

/-! ### `insertEntry` -/

@[simp] theorem insertEntry_cell (addr : Nat) (ws : List Word) (b : Block) :
    (insertEntry addr ws b).cell = memWrite b.cell addr ws := rfl
@[simp] theorem insertEntry_phase (addr : Nat) (ws : List Word) (b : Block) :
    (insertEntry addr ws b).phase = b.phase := rfl
@[simp] theorem insertEntry_ecode (addr : Nat) (ws : List Word) (b : Block) :
    (insertEntry addr ws b).ecode = b.ecode := rfl
@[simp] theorem insertEntry_eaddrLo (addr : Nat) (ws : List Word) (b : Block) :
    (insertEntry addr ws b).eaddrLo = b.eaddrLo := rfl
@[simp] theorem insertEntry_eaddrHi (addr : Nat) (ws : List Word) (b : Block) :
    (insertEntry addr ws b).eaddrHi = b.eaddrHi := rfl
@[simp] theorem insertEntry_nent (addr : Nat) (ws : List Word) (b : Block) :
    (insertEntry addr ws b).nent = b.nent + 1 := rfl

/-- The two successes and errors, told apart by their status. -/
theorem raise_mk (e : Status) (a0 a1 : Nat) (b : Block) :
    raise e a0 a1 b = (b, ⟨e, BitVec.ofNat 17 a0, BitVec.ofNat 17 a1, []⟩) := rfl

theorem succeed_mk (a0 a1 : Nat) (ws : List Word) (b : Block) :
    succeed a0 a1 ws b = (b, ⟨.ok, BitVec.ofNat 17 a0, BitVec.ofNat 17 a1, ws⟩) := rfl

end Sys2Proof.Machine
end

