-- ==== Sys2Proof/Laws/Operands.lean ====
section
/-!
SUPPORT. The machine's operand assembly agrees with the check of WellFormed.lean (spec/30_encoding.md R85), and what
the operands of a well-formed command are.
-/

namespace Sys2Proof.Machine

theorem widthOf_eq_some {v : BitVec 2} {w : Width} : widthOf v = some w ↔ v.toNat = w.words := by
  have h : ∀ v : BitVec 2, widthOf v = some w ↔ v.toNat = w.words := by cases w <;> decide
  exact h v

theorem toNat_pos {n : Nat} {v : BitVec n} (h : v ≠ 0) : 0 < v.toNat :=
  Nat.pos_of_ne_zero fun h0 => h (BitVec.eq_of_toNat_eq (by simpa using h0))

theorem scalarOperands_isSome (f : Fields) : (scalarOperands f).isSome = f.scalarOk := by
  have hw : (widthOf f.width).isSome = (f.width == 1 || f.width == 2) := by
    generalize f.width = v; revert v; decide
  unfold scalarOperands Fields.scalarOk
  rw [← hw]
  cases widthOf f.width with
  | none => rfl
  | some w => by_cases h : f.vden = 0#16 <;> simp [h]

/-- ENC's operands exist exactly where the command is well-formed (R85). -/
theorem encOperands_isSome (f : Fields) : (encOperands f).isSome = (Instr.enc f).wellFormed := by
  show _ = (f.cls == 0 && f.rsv == 0 && f.addr == 0 && f.scalarOk)
  unfold encOperands
  rw [← scalarOperands_isSome]
  split <;> rename_i h
  · simp [h.1, h.2.1, h.2.2]
  · by_cases h1 : f.cls = 0 <;> by_cases h2 : f.rsv = 0 <;> by_cases h3 : f.addr = 0 <;> simp_all

/-- DEF's operands exist exactly where the command is well-formed (R85). -/
theorem defOperands_isSome (f : Fields) : (defOperands f).isSome = (Instr.define f).wellFormed := by
  show _ = (f.cls == 0 && f.rsv == 0 && f.scalarOk)
  unfold defOperands
  rw [← scalarOperands_isSome]
  split <;> rename_i h
  · simp [h.1, h.2]
  · by_cases h1 : f.cls = 0 <;> by_cases h2 : f.rsv = 0 <;> simp_all

/-- COMMIT is accepted exactly where it is well-formed (R85). -/
theorem commitOperands_isSome (f : Fields) : (commitOperands f).isSome = (Instr.commit f).wellFormed := by
  unfold commitOperands Instr.wellFormed
  split <;> simp_all

/-- The operands of a request exist exactly where the fields are legal (R85). -/
theorem requestOperands_isSome (f : Fields) : (requestOperands f).isSome = f.requestOk := by
  unfold requestOperands Fields.requestOk
  split <;> rename_i h
  · obtain ⟨h1, h2, h3, h4, h5, h6⟩ := h
    simpa [h1, h2, h3, h4, h5] using h6
  · by_cases h1 : f.width = 0 <;> by_cases h2 : f.s = 0 <;> by_cases h3 : f.rsv = 0 <;>
      by_cases h4 : f.vden = 0 <;> by_cases h5 : f.vnum = 0 <;> by_cases h6 : f.sc = 0 <;> simp_all

/-- What the operands of an ENC or DEF are (R86 to R88). -/
theorem scalarOperands_eq_some {f : Fields} {v : Scalar} (h : scalarOperands f = some v) :
    v.num = f.vnum.toInt ∧ v.den = f.vden.toNat ∧ 0 < v.den ∧ v.scale = f.sc.toNat ∧
      v.width.words = f.width.toNat ∧ v.signed = (f.s == 1) := by
  unfold scalarOperands at h
  split at h
  · cases h
  · rename_i w hw
    split at h
    · cases h
    · rename_i hd
      cases h
      exact ⟨rfl, rfl, toNat_pos hd, rfl, (widthOf_eq_some.mp hw).symm, rfl⟩

theorem encOperands_eq_some {f : Fields} {v : Scalar} (h : encOperands f = some v) :
    scalarOperands f = some v := by
  unfold encOperands at h
  split at h
  · exact h
  · cases h

theorem defOperands_eq_some {f : Fields} {v : Scalar} (h : defOperands f = some v) :
    scalarOperands f = some v := by
  unfold defOperands at h
  split at h
  · exact h
  · cases h

/-- What the operands of a READ or WRITE are (R87, R89). -/
theorem requestOperands_eq_some {f : Fields} {q : Request} (h : requestOperands f = some q) :
    q.cls = classOf f.cls ∧ q.addr = f.addr.toNat ∧ q.count = f.sc.toNat ∧ 0 < q.count := by
  unfold requestOperands at h
  split at h
  · rename_i hw
    cases h
    exact ⟨rfl, rfl, rfl, toNat_pos hw.2.2.2.2.2⟩
  · cases h

/-- The width of a well-formed DEF is 1 or 2 words. -/
theorem Width.words_bounds (w : Width) : 1 ≤ w.words ∧ w.words ≤ 2 := by cases w <;> decide

end Sys2Proof.Machine
end

