-- ==== Sys2Proof/Laws/Encoder.lean ====
section
/-!
SUPPORT. The encoder: when it gives words and which (spec/40_encoder.md R111 to R118).
-/

namespace Sys2Proof.Machine

/-- Everything the encoder can do (R114 to R118). -/
theorem encodeValue_eq_some {n : Int} {d k : Nat} {w : Width} {s : Bool} {ws : List Word} :
    encodeValue n d k w s = some ws ↔
      rangeLo w s ≤ truncated n d k ∧ truncated n d k ≤ rangeHi w s ∧ ws = emit w (truncated n d k) := by
  unfold encodeValue
  split <;> rename_i h
  · constructor
    · intro h'; cases h'
    · rintro ⟨h1, h2, -⟩; omega
  · constructor
    · intro h'; cases h'; exact ⟨by omega, by omega, rfl⟩
    · rintro ⟨-, -, rfl⟩; rfl

theorem encodeValue_eq_none {n : Int} {d k : Nat} {w : Width} {s : Bool} :
    encodeValue n d k w s = none ↔ truncated n d k < rangeLo w s ∨ rangeHi w s < truncated n d k := by
  unfold encodeValue
  split <;> rename_i h
  · exact ⟨fun _ => h, fun _ => rfl⟩
  · exact ⟨fun h' => (by cases h'), fun h' => absurd h' h⟩

@[simp] theorem emit_length (w : Width) (t : Int) : (emit w t).length = w.words := by cases w <;> rfl

/-- The encoder gives exactly WIDTH words (R118). -/
theorem encodeScalar_length {v : Scalar} {ws : List Word} (h : encodeScalar v = some ws) :
    ws.length = v.width.words := by
  obtain ⟨-, -, rfl⟩ := encodeValue_eq_some.mp h
  exact emit_length _ _

end Sys2Proof.Machine
end

