-- ==== Sys2Proof/Laws/Memory.lean ====
section
/-!
SUPPORT. The register space: read after write, the canonical form kept by every operation, and what the scans of
MemRead and of the overlap check find (spec/20_memory.md R57, R59; spec/41_build.md R145).
-/

namespace Sys2Proof.Machine

@[simp] theorem lookup_nil (a : Nat) : lookup [] a = none := rfl

theorem lookup_setCell (m : Memory) (a : Nat) (w : Word) (x : Nat) :
    lookup (setCell m a w) x = if x = a then some w else lookup m x := by
  induction m with
  | nil => simp [setCell, lookup, eq_comm]
  | cons p m ih =>
    obtain ⟨k, v⟩ := p
    simp only [setCell]
    split
    · by_cases hx : x = a
      · simp [lookup, hx]
      · simp [lookup, hx, Ne.symm hx]
    · split
      · rename_i h; subst h
        by_cases hx : x = a
        · simp [lookup, hx]
        · simp [lookup, hx, Ne.symm hx]
      · rename_i h
        by_cases hx : x = a
        · subst hx; simp [lookup, ih, Ne.symm h]
        · simp [lookup, ih, hx]

/-- An address above 0xFFFF has no backing value (R58). -/
theorem cellAt_above {a : Nat} (h : 0x10000 ≤ a) (m : Memory) : cellAt m a = none := by
  simp only [cellAt, Config.registerCount]; exact if_neg (by omega)

@[simp] theorem cellAt_nil (a : Nat) : cellAt [] a = none := by simp [cellAt]

theorem lt_of_cellAt_isSome {m : Memory} {a : Nat} (h : (cellAt m a).isSome = true) : a < 0x10000 := by
  by_contra hn; rw [cellAt_above (by omega)] at h; cases h

/-- Read after one write (R59). -/
theorem cellAt_setCell {a : Nat} (h : a < 0x10000) (m : Memory) (w : Word) (x : Nat) :
    cellAt (setCell m a w) x = if x = a then some w else cellAt m x := by
  unfold cellAt
  rw [lookup_setCell]
  by_cases hx : x = a
  · subst hx; rw [if_pos (show x < Config.registerCount from h), if_pos rfl, if_pos rfl]
  · rw [if_neg hx, if_neg hx]

/-- Read after MemWrite: the written words, and every other cell as before (R59). -/
theorem cellAt_memWrite (ws : List Word) (m : Memory) (addr x : Nat) (h : addr + ws.length ≤ 0x10000) :
    cellAt (memWrite m addr ws) x =
      if addr ≤ x ∧ x < addr + ws.length then ws[x - addr]? else cellAt m x := by
  induction ws generalizing m addr with
  | nil => simp [memWrite]
  | cons w ws ih =>
    simp only [List.length_cons] at h
    rw [memWrite, ih _ _ (by omega), cellAt_setCell (by omega)]
    by_cases hx : x = addr
    · subst hx; simp
    · by_cases h1 : addr + 1 ≤ x ∧ x < addr + 1 + ws.length
      · rw [if_pos h1, if_pos ⟨by omega, by simp; omega⟩]
        obtain ⟨j, rfl⟩ : ∃ j, x = addr + 1 + j := ⟨x - (addr + 1), by omega⟩
        rw [show addr + 1 + j - (addr + 1) = j by omega, show addr + 1 + j - addr = j + 1 by omega]
        simp
      · rw [if_neg h1, if_neg hx, if_neg (by simp; omega)]

/-! ### The canonical form -/

theorem risingFrom_mono {m : Memory} {lo lo' : Nat} (h : lo' ≤ lo) (hm : risingFrom lo m = true) :
    risingFrom lo' m = true := by
  cases m with
  | nil => rfl
  | cons p m =>
    obtain ⟨k, v⟩ := p
    simp only [risingFrom, Bool.and_eq_true, decide_eq_true_eq] at hm ⊢
    exact ⟨⟨by omega, hm.1.2⟩, hm.2⟩

theorem risingFrom_setCell {m : Memory} {lo a : Nat} (hm : risingFrom lo m = true) (hlo : lo ≤ a)
    (ha : a < 0x10000) (w : Word) : risingFrom lo (setCell m a w) = true := by
  have ha' : a < Config.registerCount := ha
  induction m generalizing lo with
  | nil => simp [setCell, risingFrom, hlo, ha']
  | cons p m ih =>
    obtain ⟨k, v⟩ := p
    simp only [risingFrom, Bool.and_eq_true, decide_eq_true_eq] at hm
    simp only [setCell]
    split
    · simp only [risingFrom, Bool.and_eq_true, decide_eq_true_eq]
      exact ⟨⟨hlo, ha'⟩, ⟨by omega, hm.1.2⟩, hm.2⟩
    · split
      · rename_i h; subst h
        simp only [risingFrom, Bool.and_eq_true, decide_eq_true_eq]
        exact ⟨⟨hlo, ha'⟩, hm.2⟩
      · simp only [risingFrom, Bool.and_eq_true, decide_eq_true_eq]
        exact ⟨hm.1, ih hm.2 (by omega)⟩

/-- One write keeps the canonical form. -/
theorem setCell_wf {m : Memory} {a : Nat} (hm : Memory.wf m = true) (ha : a < 0x10000) (w : Word) :
    Memory.wf (setCell m a w) = true := risingFrom_setCell hm (Nat.zero_le _) ha w

/-- MemWrite inside the register space keeps the canonical form. -/
theorem memWrite_wf {ws : List Word} {m : Memory} {addr : Nat} (hm : Memory.wf m = true)
    (h : addr + ws.length ≤ 0x10000) : Memory.wf (memWrite m addr ws) = true := by
  induction ws generalizing m addr with
  | nil => exact hm
  | cons w ws ih =>
    simp only [List.length_cons] at h
    exact ih (setCell_wf hm (by omega) w) (by omega)

theorem reset_memory_wf : Memory.wf State.reset.block.cell = true := rfl

/-! ### MemRead -/

/-- MemRead stops at the first gap (R57). -/
theorem memRead_notMapped {m : Memory} {addr n x : Nat} (h : memRead m addr n = .notMapped x) :
    FirstGap m addr n x := by
  induction n generalizing addr with
  | zero => simp [memRead] at h
  | succ n ih =>
    simp only [memRead] at h
    split at h
    · rename_i hc
      cases h
      exact ⟨Nat.le_refl _, by omega, hc, fun a h1 h2 => by omega⟩
    · rename_i w hc
      split at h
      · cases h
      · rename_i y hy
        cases h
        have g := ih hy
        refine ⟨by have := g.above; omega, by have := g.below; omega, g.gap, fun a h1 h2 => ?_⟩
        by_cases ha : a = addr
        · subst ha; simp [hc]
        · exact g.lowest a (by omega) h2

/-- MemRead gives the word of every address, in order (R57, R172). -/
theorem memRead_ok {m : Memory} {addr n : Nat} {ws : List Word} (h : memRead m addr n = .ok ws) :
    ws.length = n ∧ ∀ i, i < n → cellAt m (addr + i) = ws[i]? := by
  induction n generalizing addr ws with
  | zero => simp only [memRead] at h; cases h; simp
  | succ n ih =>
    simp only [memRead] at h
    split at h
    · cases h
    · rename_i w hc
      split at h
      · rename_i ws' hws
        cases h
        obtain ⟨hl, hi⟩ := ih hws
        refine ⟨by simp [hl], fun i hlt => ?_⟩
        cases i with
        | zero => simpa using hc
        | succ j => simpa [Nat.add_comm, Nat.add_left_comm] using hi j (by omega)
      · cases h

/-! ### The overlap check -/

theorem mem_takenCells {m : Memory} {addr n a : Nat} :
    a ∈ takenCells m addr n ↔ addr ≤ a ∧ a < addr + n ∧ (cellAt m a).isSome = true := by
  induction n generalizing addr with
  | zero => simp [takenCells]; omega
  | succ n ih =>
    simp only [takenCells]
    split
    · rename_i w hc
      simp only [List.mem_cons, ih]
      constructor
      · rintro (rfl | ⟨h1, h2, h3⟩)
        · exact ⟨Nat.le_refl _, by omega, by simp [hc]⟩
        · exact ⟨by omega, by omega, h3⟩
      · rintro ⟨h1, h2, h3⟩
        by_cases ha : a = addr
        · exact .inl ha
        · exact .inr ⟨by omega, by omega, h3⟩
    · rename_i hc
      rw [ih]
      constructor
      · rintro ⟨h1, h2, h3⟩; exact ⟨by omega, by omega, h3⟩
      · rintro ⟨h1, h2, h3⟩
        by_cases ha : a = addr
        · subst ha; simp [hc] at h3
        · exact ⟨by omega, by omega, h3⟩

theorem takenCells_sorted (m : Memory) (addr n : Nat) : (takenCells m addr n).Pairwise (· < ·) := by
  induction n generalizing addr with
  | zero => exact List.Pairwise.nil
  | succ n ih =>
    simp only [takenCells]
    split
    · refine List.Pairwise.cons (fun a ha => ?_) (ih _)
      have := (mem_takenCells.mp ha).1; omega
    · exact ih _

/-- The overlap check finds nothing exactly where every cell of the range is free (R145). -/
theorem collision_eq_none {m : Memory} {addr n : Nat} :
    collision m addr n = none ↔ ∀ a, addr ≤ a → a < addr + n → cellAt m a = none := by
  have key : takenCells m addr n = [] ↔ ∀ a, addr ≤ a → a < addr + n → cellAt m a = none := by
    rw [List.eq_nil_iff_forall_not_mem]
    constructor
    · intro h a h1 h2
      have := h a
      rw [mem_takenCells] at this
      by_contra hc
      exact this ⟨h1, h2, by rw [Option.isSome_iff_ne_none]; exact hc⟩
    · intro h a ha
      obtain ⟨h1, h2, h3⟩ := mem_takenCells.mp ha
      rw [h a h1 h2] at h3; cases h3
  rw [← key]
  simp only [collision]
  split <;> simp_all

theorem getLastD_mem_cons (lo : Nat) (rest : List Nat) : rest.getLastD lo ∈ lo :: rest := by
  rcases List.eq_nil_or_concat rest with rfl | ⟨init, z, rfl⟩
  · simp
  · simp

/-- Where it finds something, it names the lowest and the highest taken cell (R26, R145). -/
theorem collision_eq_some {m : Memory} {addr n lo hi : Nat} (h : collision m addr n = some (lo, hi)) :
    Colliding m addr n lo hi := by
  simp only [collision] at h
  split at h
  · cases h
  · rename_i x rest hx
    obtain ⟨rfl, rfl⟩ : x = lo ∧ rest.getLastD x = hi := by simpa using h
    have hs := takenCells_sorted m addr n
    rw [hx] at hs
    have hmem : ∀ a, a ∈ x :: rest ↔ addr ≤ a ∧ a < addr + n ∧ (cellAt m a).isSome = true := by
      intro a; rw [← hx]; exact mem_takenCells
    have hlo := (hmem x).mp (by simp)
    have hhi := (hmem _).mp (getLastD_mem_cons x rest)
    refine ⟨⟨hlo.1, hlo.2.1⟩, ⟨hhi.1, hhi.2.1⟩, hlo.2.2, hhi.2.2, fun a h1 h2 h3 => ?_⟩
    have ha := (hmem a).mpr ⟨h1, h2, h3⟩
    constructor
    · rcases List.mem_cons.mp ha with rfl | hr
      · exact Nat.le_refl _
      · exact Nat.le_of_lt ((List.pairwise_cons.mp hs).1 a hr)
    · rcases List.eq_nil_or_concat rest with rfl | ⟨init, z, rfl⟩
      · simp at ha; simp [ha]
      · simp only [List.concat_eq_append, List.getLastD_concat] at *
        rw [← List.cons_append] at hs ha
        rcases List.mem_append.mp ha with hi | hz
        · exact Nat.le_of_lt ((List.pairwise_append.mp hs).2.2 a hi z (by simp))
        · simp at hz; omega

/-! ### Counting cells -/

theorem filter_range_add_one {p q : Nat → Bool} {a n : Nat} (ha : a < n) (hp : p a = false)
    (hq : ∀ x, q x = if x = a then true else p x) :
    ((List.range n).filter q).length = ((List.range n).filter p).length + 1 := by
  have hne : ∀ n, n ≤ a → (List.range n).filter q = (List.range n).filter p := fun n hn =>
    List.filter_congr fun x hx => by
      rw [hq, if_neg]; have := List.mem_range.mp hx; omega
  induction n with
  | zero => omega
  | succ n ih =>
    rw [List.range_succ, List.filter_append, List.filter_append, List.length_append, List.length_append]
    by_cases h : a < n
    · rw [ih h]
      have : q n = p n := by rw [hq, if_neg]; omega
      simp [List.filter_cons, this]; omega
    · have han : a = n := by omega
      subst han
      rw [hne a (Nat.le_refl _)]
      simp [hq a, hp]

/-- Filling a free cell adds one to the number of `some` cells (R27). -/
theorem someCount_setCell {m : Memory} {a : Nat} (ha : a < 0x10000) (hfree : cellAt m a = none) (w : Word) :
    someCount (setCell m a w) = someCount m + 1 := by
  refine filter_range_add_one (a := a) ha (by simp [hfree]) fun x => ?_
  rw [cellAt_setCell ha]
  split <;> simp

@[simp] theorem someCount_nil : someCount [] = 0 := by
  unfold someCount
  rw [List.length_eq_zero_iff, List.filter_eq_nil_iff]
  intro a _
  simp

/-- Filling free cells adds their number to the number of `some` cells (R27). -/
theorem someCount_memWrite {ws : List Word} {m : Memory} {addr : Nat} (h : addr + ws.length ≤ 0x10000)
    (hfree : ∀ a, addr ≤ a → a < addr + ws.length → cellAt m a = none) :
    someCount (memWrite m addr ws) = someCount m + ws.length := by
  induction ws generalizing m addr with
  | nil => simp only [memWrite, List.length_nil, Nat.add_zero]
  | cons w ws ih =>
    simp only [List.length_cons] at h hfree ⊢
    rw [memWrite, ih (by omega), someCount_setCell (by omega) (hfree addr (by omega) (by omega))]
    · omega
    · intro a h1 h2
      rw [cellAt_setCell (by omega), if_neg (by omega)]
      exact hfree a (by omega) (by omega)

/-- There are at most 65536 `some` cells. -/
theorem someCount_le (m : Memory) : someCount m ≤ 0x10000 := by
  refine (List.length_filter_le _ _).trans ?_
  rw [List.length_range, Config.registerCount]

end Sys2Proof.Machine
end

