-- ==== Sys2Proof/Laws/Commands.lean ====
section
/-!
SUPPORT. One inversion lemma per command and shared operation: everything it can answer. The provers cite these
instead of unfolding a meaning.
-/

namespace Sys2Proof.Machine

/-! ### The arms of `exec` -/

@[simp] theorem exec_enc (f : Fields) (s : State) : exec (.enc f) s = .next (answer s (encCommand f s.block)) := rfl
@[simp] theorem exec_define (f : Fields) (s : State) :
    exec (.define f) s = .next (answer s (defCommand f s.block)) := rfl
@[simp] theorem exec_commit (f : Fields) (s : State) :
    exec (.commit f) s = .next (answer s (commitCommand f s.block)) := rfl
@[simp] theorem exec_read (f : Fields) (s : State) : exec (.read f) s = .next (answer s (readCommand f s.block)) := rfl
@[simp] theorem exec_write (f : Fields) (s : State) :
    exec (.write f) s = .next (answer s (writeCommand f s.block)) := rfl

/-- Every arm answers the transaction of its command. -/
theorem exec_eq_answer (i : Instr) (s : State) : exec i s = .next (answer s (transactInstr i s.block)) := by
  cases i <;> rfl

/-! ### The commands on the block -/

/-- Everything a reserved opcode can answer (R90). -/
theorem reservedCommand_cases (b : Block) :
    (b.phase = .failed ∧ reservedCommand b = raise .failedRefused 0 0 b) ∨
      (b.phase ≠ .failed ∧ reservedCommand b = raise .badCommand 0 0 b) := by
  cases h : b.phase <;> simp [reservedCommand, h]

/-- Everything ENC can answer (R110). -/
theorem encCommand_cases (f : Fields) (b : Block) :
    (b.phase = .failed ∧ encCommand f b = raise .failedRefused 0 0 b) ∨
    (b.phase ≠ .failed ∧ encOperands f = none ∧ encCommand f b = raise .badCommand 0 0 b) ∨
    (∃ v, b.phase ≠ .failed ∧ encOperands f = some v ∧ encodeScalar v = none ∧
      encCommand f b = raise .cfgRange 0 0 b) ∨
    (∃ v ws, b.phase ≠ .failed ∧ encOperands f = some v ∧ encodeScalar v = some ws ∧
      encCommand f b = succeed 0 0 ws b) := by
  cases hp : b.phase
  case failed => exact .inl ⟨rfl, by simp only [encCommand, hp]⟩
  all_goals
    right
    cases ho : encOperands f with
    | none => exact .inl ⟨by decide, rfl, by simp only [encCommand, hp, ho]⟩
    | some v =>
      right
      cases he : encodeScalar v with
      | none => exact .inl ⟨v, by decide, rfl, he, by simp only [encCommand, hp, ho, he]⟩
      | some ws => exact .inr ⟨v, ws, by decide, rfl, he, by simp only [encCommand, hp, ho, he]⟩

/-- Everything the checks of a well-formed DEF in BUILD can answer (R140, R143 to R145). -/
theorem placeEntry_cases (addr : Nat) (v : Scalar) (b : Block) :
    (0x10000 < addr + v.width.words ∧ placeEntry addr v b = fatal .cfgAddr addr addr b) ∨
    (addr + v.width.words ≤ 0x10000 ∧ encodeScalar v = none ∧ placeEntry addr v b = fatal .cfgRange addr addr b) ∨
    (∃ ws lo hi, addr + v.width.words ≤ 0x10000 ∧ encodeScalar v = some ws ∧
      collision b.cell addr v.width.words = some (lo, hi) ∧ placeEntry addr v b = fatal .cfgOverlap lo hi b) ∨
    (∃ ws, addr + v.width.words ≤ 0x10000 ∧ encodeScalar v = some ws ∧
      collision b.cell addr v.width.words = none ∧
      placeEntry addr v b = succeed addr (addr + v.width.words - 1) ws (insertEntry addr ws b)) := by
  unfold placeEntry
  by_cases ha : Config.registerCount < addr + v.width.words
  · rw [if_pos ha]; exact .inl ⟨ha, rfl⟩
  · rw [if_neg ha]
    have hle : addr + v.width.words ≤ 0x10000 := Nat.le_of_not_lt ha
    right
    cases he : encodeScalar v with
    | none => exact .inl ⟨hle, rfl, rfl⟩
    | some ws =>
      right
      cases hc : collision b.cell addr v.width.words with
      | some p => obtain ⟨lo, hi⟩ := p; exact .inl ⟨ws, lo, hi, hle, rfl, rfl, rfl⟩
      | none => exact .inr ⟨ws, hle, rfl, rfl, rfl⟩

/-- Everything DEF can answer (R140 to R146). -/
theorem defCommand_cases (f : Fields) (b : Block) :
    (b.phase = .failed ∧ defCommand f b = raise .failedRefused 0 0 b) ∨
    (b.phase = .serve ∧ defCommand f b = raise .phaseError 0 0 b) ∨
    (b.phase = .build ∧ defOperands f = none ∧ defCommand f b = fatal .cfgSpec f.addr.toNat f.addr.toNat b) ∨
    (∃ v, b.phase = .build ∧ defOperands f = some v ∧ defCommand f b = placeEntry f.addr.toNat v b) := by
  cases hp : b.phase
  case failed => exact .inl ⟨rfl, by simp only [defCommand, hp]⟩
  case serve => exact .inr (.inl ⟨rfl, by simp only [defCommand, hp]⟩)
  case build =>
    right; right
    cases ho : defOperands f with
    | none => exact .inl ⟨rfl, rfl, by simp only [defCommand, hp, ho]⟩
    | some v => exact .inr ⟨v, rfl, rfl, by simp only [defCommand, hp, ho]⟩

/-- The words of a DEF are the encoder's on its operands. -/
theorem defWords_of_operands {f : Fields} {v : Scalar} (h : defOperands f = some v) :
    defWords f = encodeScalar v := by
  unfold defWords
  rw [h]

/-- The words of a DEF are WIDTH in number (R118, R140). -/
theorem defWords_length {f : Fields} {ws : List Word} (h : defWords f = some ws) : ws.length = f.width.toNat := by
  unfold defWords at h
  split at h
  · cases h
  · rename_i v hv
    rw [encodeScalar_length h, (scalarOperands_eq_some (defOperands_eq_some hv)).2.2.2.2.1]

/-- What an accepted DEF says: the phase was BUILD, the spec was well-formed, inside the address space, in range and
met only free cells, and it was inserted (R140, R145). -/
theorem defCommand_accepted {f : Fields} {b : Block} (h : (defCommand f b).2.status = .ok) :
    b.phase = .build ∧ (Instr.define f).wellFormed = true ∧ f.addr.toNat + f.width.toNat ≤ 0x10000 ∧
      ∃ ws, defWords f = some ws ∧ (∀ a, Covers f a → cellAt b.cell a = none) ∧
        defCommand f b =
          succeed f.addr.toNat (f.addr.toNat + f.width.toNat - 1) ws (insertEntry f.addr.toNat ws b) := by
  rcases defCommand_cases f b with ⟨-, e⟩ | ⟨-, e⟩ | ⟨-, -, e⟩ | ⟨v, hp, ho, e⟩
  · rw [e] at h; cases h
  · rw [e] at h; cases h
  · rw [e] at h; cases h
  · have hw : v.width.words = f.width.toNat := (scalarOperands_eq_some (defOperands_eq_some ho)).2.2.2.2.1
    rw [e] at h ⊢
    rcases placeEntry_cases f.addr.toNat v b with ⟨-, e'⟩ | ⟨-, -, e'⟩ | ⟨ws, lo, hi, -, -, -, e'⟩ | ⟨ws, hf, he, hc, e'⟩
    · rw [e'] at h; cases h
    · rw [e'] at h; cases h
    · rw [e'] at h; cases h
    · rw [hw] at hf hc e'
      refine ⟨hp, by rw [← defOperands_isSome, ho]; rfl, hf, ws, by rw [defWords_of_operands ho, he], fun a ha => ?_, e'⟩
      exact collision_eq_none.mp hc a ha.1 ha.2

/-- Everything COMMIT can answer (R150). -/
theorem commitCommand_cases (f : Fields) (b : Block) :
    (b.phase = .failed ∧ commitCommand f b = raise .failedRefused 0 0 b) ∨
    (b.phase = .serve ∧ commitCommand f b = raise .phaseError 0 0 b) ∨
    (b.phase = .build ∧ f ≠ Fields.zero ∧ commitCommand f b = raise .badCommand 0 0 b) ∨
    (b.phase = .build ∧ f = Fields.zero ∧ commitCommand f b = succeed 0 0 [] { b with phase := .serve }) := by
  cases hp : b.phase
  case failed => exact .inl ⟨rfl, by simp only [commitCommand, hp]⟩
  case serve => exact .inr (.inl ⟨rfl, by simp only [commitCommand, hp]⟩)
  case build =>
    right; right
    by_cases hf : f = Fields.zero
    · exact .inr ⟨rfl, hf, by simp only [commitCommand, hp, commitOperands, if_pos hf]⟩
    · exact .inl ⟨rfl, hf, by simp only [commitCommand, hp, commitOperands, if_neg hf]⟩

/-- Everything the lookup of a request can answer (R172, R173). -/
theorem serveRequest_cases (q : Request) (b : Block) :
    (∃ x, FirstGap b.cell q.addr q.count x ∧ serveRequest q b = raise .unmappedAddress x 0 b) ∨
    (∃ ws : List Word, ws.length = q.count ∧ (∀ i, i < q.count → cellAt b.cell (q.addr + i) = ws[i]?) ∧
      serveRequest q b = succeed q.addr (q.addr + q.count - 1) ws b) := by
  unfold serveRequest
  cases h : memRead b.cell q.addr q.count with
  | notMapped x => exact .inl ⟨x, memRead_notMapped h, rfl⟩
  | ok ws => exact .inr ⟨ws, (memRead_ok h).1, (memRead_ok h).2, rfl⟩

/-- Everything READ can answer (R170). -/
theorem readCommand_cases (f : Fields) (b : Block) :
    (b.phase = .failed ∧ readCommand f b = raise .failedRefused 0 0 b) ∨
    (b.phase = .build ∧ readCommand f b = raise .phaseError 0 0 b) ∨
    (b.phase = .serve ∧ requestOperands f = none ∧ readCommand f b = raise .badCommand 0 0 b) ∨
    (∃ q, b.phase = .serve ∧ requestOperands f = some q ∧ readCommand f b = serveRequest q b) := by
  cases hp : b.phase
  case failed => exact .inl ⟨rfl, by simp only [readCommand, hp]⟩
  case build => exact .inr (.inl ⟨rfl, by simp only [readCommand, hp]⟩)
  case serve =>
    right; right
    cases ho : requestOperands f with
    | none => exact .inl ⟨rfl, rfl, by simp only [readCommand, hp, ho]⟩
    | some q => exact .inr ⟨q, rfl, rfl, by simp only [readCommand, hp, ho]⟩

/-- Everything WRITE can answer (R177). -/
theorem writeCommand_cases (f : Fields) (b : Block) :
    (b.phase = .failed ∧ writeCommand f b = raise .failedRefused 0 0 b) ∨
    (b.phase = .build ∧ writeCommand f b = raise .phaseError 0 0 b) ∨
    (b.phase = .serve ∧ requestOperands f = none ∧ writeCommand f b = raise .badCommand 0 0 b) ∨
    (∃ q, b.phase = .serve ∧ requestOperands f = some q ∧
      writeCommand f b = raise .unsupportedOperation q.addr 0 b) := by
  cases hp : b.phase
  case failed => exact .inl ⟨rfl, by simp only [writeCommand, hp]⟩
  case build => exact .inr (.inl ⟨rfl, by simp only [writeCommand, hp]⟩)
  case serve =>
    right; right
    cases ho : requestOperands f with
    | none => exact .inl ⟨rfl, rfl, by simp only [writeCommand, hp, ho]⟩
    | some q => exact .inr ⟨q, rfl, rfl, by simp only [writeCommand, hp, ho]⟩

/-! ### The port -/

theorem takeInput_nil {s : State} (h : s.inputs = []) : takeInput s = none := by simp [takeInput, h]

theorem takeInput_cons {s : State} {e : HostEvent} {rest : List HostEvent} (h : s.inputs = e :: rest) :
    takeInput s = some (e, { s with inputs := rest }) := by simp [takeInput, h]

/-- Everything a step can do: it always answers with a next state (R237). -/
theorem step_cases (s : State) :
    (s.inputs = [] ∧ step s = .next s) ∨
    (∃ rest, s.inputs = .reset :: rest ∧ step s = .next (applyReset { s with inputs := rest })) ∨
    (∃ w rest, s.inputs = .command w :: rest ∧
      step s = .next (answer { s with inputs := rest } (transact w s.block))) := by
  cases h : s.inputs with
  | nil => exact .inl ⟨rfl, by simp only [step, takeInput_nil h]⟩
  | cons e rest =>
    right
    cases e with
    | reset => exact .inl ⟨rest, rfl, by simp only [step, takeInput_cons h]⟩
    | command w =>
      refine .inr ⟨w, rest, rfl, ?_⟩
      simp only [step, takeInput_cons h, transact]
      cases decode w with
      | error e => rfl
      | ok i => exact exec_eq_answer i _

end Sys2Proof.Machine
end

