-- ==== Sys2Proof/Laws/PerInstr.lean ====
section
/-!
SUPPORT. The facts that hold of every instruction, one lemma per constructor. EncodedOpcode: the OP field of an
encoded command is its opcode's value (spec/30_encoding.md R81, R84).
-/

namespace Sys2Proof.Laws

/-- The OP field of an encoded command is its opcode's value (R81, R84). -/
def EncodedOpcode.Statement (i : Instr) : Prop := (encode i).extractLsb' 120 8 = i.opcode.code

/-- Bits above the low operand of `++` are bits of the high operand. -/
theorem extractLsb'_append_high {m n : Nat} (a : BitVec m) (b : BitVec n) (k len : Nat) (h : n ≤ k) :
    (a ++ b).extractLsb' k len = a.extractLsb' (k - n) len := by
  apply BitVec.eq_of_getLsbD_eq
  intro j hj
  rw [BitVec.getLsbD_extractLsb', BitVec.getLsbD_extractLsb', BitVec.getLsbD_append, if_neg (by omega),
    show k + j - n = k - n + j by omega]

theorem encoded_opcode (i : Instr) : (encode i).extractLsb' 120 8 = i.opcode.code := by
  unfold encode
  iterate 8 rw [extractLsb'_append_high _ _ _ _ (by decide)]
  exact BitVec.extractLsb'_eq_self

theorem EncodedOpcode.enc (f : Fields) : EncodedOpcode.Statement (.enc f) := encoded_opcode _
theorem EncodedOpcode.define (f : Fields) : EncodedOpcode.Statement (.define f) := encoded_opcode _
theorem EncodedOpcode.commit (f : Fields) : EncodedOpcode.Statement (.commit f) := encoded_opcode _
theorem EncodedOpcode.read (f : Fields) : EncodedOpcode.Statement (.read f) := encoded_opcode _
theorem EncodedOpcode.write (f : Fields) : EncodedOpcode.Statement (.write f) := encoded_opcode _

end Sys2Proof.Laws
end

