-- ==== Sys2Proof/Tests/Slice0.lean ====
section
/-!
SUPPORT. Tests: the ill-formed terms that WellFormed refuses, words written out from the encoding, one step per
command on a small state, with expected results taken from spec/95_test_vectors.md, and a witness for the
hypotheses of each statement.
-/

namespace Sys2Proof.Tests

open Sys2Proof.Machine

/-! ### Small states -/

/-- A machine with these cells and phase, nothing else set. -/
def machine (p : Phase) (cells : Memory) : State :=
  { block := { Block.reset with cell := cells, phase := p }, inputs := [], responses := [] }

/-- The map of spec/95_test_vectors.md section 2.3. -/
def sampleCells : Memory := [(0x3000, 0x1770), (0x3002, 0x0002), (0x3003, 0xBF20), (0x3004, 0x0007)]

/-- `ENC w1, s, x100, -12345/1000` (R95). -/
def encNegative : Fields := ⟨0, 1, 1, 0, 0, 100, 1000, 0xFFFFFFFFFFFFCFC7⟩

/-- `DEF 0x3000, w1, u, x100, 60/1` (R95). -/
def defVoltage : Fields := ⟨0, 1, 0, 0, 0x3000, 100, 1, 60⟩

/-- `DEF 0x3002, w2, u, x100, 1800/1` (R95). -/
def defPower : Fields := ⟨0, 2, 0, 0, 0x3002, 100, 1, 1800⟩

/-- `READ hr, a, n`. -/
def readHr (a n : BitVec 16) : Fields := ⟨2, 0, 0, 0, a, n, 0, 0⟩

/-! ### WellFormed refuses each ill-formed term (R85) -/

theorem test_wf_enc : (Instr.enc encNegative).wellFormed = true
    ∧ (Instr.enc { encNegative with cls := 1 }).wellFormed = false
    ∧ (Instr.enc { encNegative with rsv := 4 }).wellFormed = false
    ∧ (Instr.enc { encNegative with addr := 1 }).wellFormed = false
    ∧ (Instr.enc { encNegative with width := 0 }).wellFormed = false
    ∧ (Instr.enc { encNegative with width := 3 }).wellFormed = false
    ∧ (Instr.enc { encNegative with vden := 0 }).wellFormed = false := by decide

theorem test_wf_define : (Instr.define defPower).wellFormed = true
    ∧ (Instr.define { defPower with cls := 2 }).wellFormed = false
    ∧ (Instr.define { defPower with rsv := 1 }).wellFormed = false
    ∧ (Instr.define { defPower with width := 0 }).wellFormed = false
    ∧ (Instr.define { defPower with width := 3 }).wellFormed = false
    ∧ (Instr.define { defPower with vden := 0 }).wellFormed = false := by decide

theorem test_wf_commit : (Instr.commit Fields.zero).wellFormed = true
    ∧ (Instr.commit { Fields.zero with cls := 1 }).wellFormed = false
    ∧ (Instr.commit { Fields.zero with width := 1 }).wellFormed = false
    ∧ (Instr.commit { Fields.zero with s := 1 }).wellFormed = false
    ∧ (Instr.commit { Fields.zero with rsv := 1 }).wellFormed = false
    ∧ (Instr.commit { Fields.zero with addr := 1 }).wellFormed = false
    ∧ (Instr.commit { Fields.zero with sc := 1 }).wellFormed = false
    ∧ (Instr.commit { Fields.zero with vden := 1 }).wellFormed = false
    ∧ (Instr.commit { Fields.zero with vnum := 1 }).wellFormed = false := by decide

theorem test_wf_request : (readHr 0x3000 1).requestOk = true
    ∧ ({ readHr 0x3000 1 with width := 1 } : Fields).requestOk = false
    ∧ ({ readHr 0x3000 1 with s := 1 } : Fields).requestOk = false
    ∧ ({ readHr 0x3000 1 with rsv := 2 } : Fields).requestOk = false
    ∧ ({ readHr 0x3000 1 with vden := 1 } : Fields).requestOk = false
    ∧ ({ readHr 0x3000 1 with vnum := 1 } : Fields).requestOk = false
    ∧ (readHr 0x3000 0).requestOk = false := by decide

theorem test_wf_read_write : ∀ f : Fields,
    (Instr.read f).wellFormed = f.requestOk ∧ (Instr.write f).wellFormed = f.requestOk := fun _ => ⟨rfl, rfl⟩

/-! ### Words written out from the encoding decode to what they stand for (R81, R84, R95, section 3 of the vectors) -/

theorem test_decode_enc : decodeTableWord 128 0x01180000006403E8FFFFFFFFFFFFCFC7 = some (.enc encNegative) := by decide
theorem test_decode_define : decodeTableWord 128 0x02203002006400010000000000000708 = some (.define defPower) := by
  decide
theorem test_decode_define_signed : decodeTableWord 128 0x022890040064000AFFFFFFFFFFFFFF01
    = some (.define ⟨0, 2, 1, 0, 0x9004, 100, 10, 0xFFFFFFFFFFFFFF01⟩) := by decide
theorem test_decode_commit : decodeTableWord 128 0x03000000000000000000000000000000 = some (.commit Fields.zero) := by
  decide
theorem test_decode_read : decodeTableWord 128 0x04C03000000100000000000000000000
    = some (.read ⟨3, 0, 0, 0, 0x3000, 1, 0, 0⟩) := by decide
theorem test_decode_write : decodeTableWord 128 0x05809000000100000000000000000000
    = some (.write ⟨2, 0, 0, 0, 0x9000, 1, 0, 0⟩) := by decide
/-- Every field of format C alone in a READ word, RSV among them (R81). -/
theorem test_decode_each_field : decodeTableWord 128 0x04EDAAAA5555C3C38123456789ABCDEF
    = some (.read ⟨3, 2, 1, 5, 0xAAAA, 0x5555, 0xC3C3, 0x8123456789ABCDEF⟩) := by decide
theorem test_decode_reserved : decodeTableWord 128 0 = none ∧ decodeTableWord 128 0x06000000000000000000000000000000 = none
    ∧ decodeTableWord 128 0xFF000000000000000000000000000000 = none := by decide
theorem test_decode_malformed : decodeWellFormed 0x0230300000640001000000000000003C
    = .error (.malformed (.define { defVoltage with width := 3 })) := by decide
/-- The bytes of a command word, high byte first (R82). -/
theorem test_decode_bytes : decodeBytes
    [0x03, 0, 0, 0, 0, 0, 0, 0, 0, 0, 0, 0, 0, 0, 0, 0] = .ok (.commit Fields.zero)
    ∧ decodeBytes [0x03] = .error (.notACommandLength 1) := by decide

/-! ### The encoder: vectors E9, E26, E37, E13, E25, E40 -/

theorem test_encode_values : encodeValue (-12345) 1000 100 .one true = some [0xFB2E]
    ∧ encodeValue (-2147483648) 100 100 .two true = some [0x8000, 0x0000]
    ∧ encodeValue (-255) 10 100 .two true = some [0xFFFF, 0xF60A] := by decide
theorem test_encode_range_errors : encodeValue (-1) 100 100 .one false = none
    ∧ encodeValue 4294967296 100 100 .two false = none
    ∧ encodeValue 9223372036854775807 1 65535 .two false = none := by decide

/-! ### One step per command -/

/-- P4 row 14. -/
theorem test_enc_negative : step ((machine .serve []).withFetchWord 128 0x01180000006403E8FFFFFFFFFFFFCFC7)
    = .next { machine .serve [] with responses := [⟨.ok, 0, 0, [0xFB2E]⟩] } := rfl

/-- P4 row 15: not fatal in ENC. -/
theorem test_enc_range : step ((machine .serve []).withFetchWord 128 0x0110000000640064FFFFFFFFFFFFFFFF)
    = .next { machine .serve [] with responses := [⟨.cfgRange, 0, 0, []⟩] } := rfl

/-- O12: the highest two-word entry. -/
theorem test_define_top : (defCommand ⟨0, 2, 0, 0, 0xFFFE, 1, 1, 0x12345⟩ Block.reset).1.cell
    = [(0xFFFE, 0x0001), (0xFFFF, 0x2345)] := by decide +kernel

/-- O9: no partial insertion, and the colliding address named. -/
theorem test_define_overlap : defCommand defPower (machine .build [(0x3001, 7), (0x3003, 7)]).block
    = ({ (machine .build [(0x3001, 7), (0x3003, 7)]).block with
          phase := .failed, ecode := 0x11, eaddrLo := 0x3003, eaddrHi := 0x3003 },
        ⟨.cfgOverlap, 0x3003, 0x3003, []⟩) := by decide +kernel

/-- P7 row 1. -/
theorem test_commit : step (State.reset.withFetchWord 128 0x03000000000000000000000000000000)
    = .next { machine .serve [] with responses := [⟨.ok, 0, 0, []⟩] } := rfl

/-- P6 row 3. -/
theorem test_commit_malformed : step (State.reset.withFetchWord 128 0x03000000000000000000000000000001)
    = .next { State.reset with responses := [⟨.badCommand, 0, 0, []⟩] } := rfl

/-- A6: from the middle of one entry into the next. -/
theorem test_read_spanning : (readCommand (readHr 0x3003 2) (machine .serve sampleCells).block).2
    = ⟨.ok, 0x3003, 0x3004, [0xBF20, 0x0007]⟩ := by decide +kernel

/-- P5 row 6: no wrap to 0x0000. -/
theorem test_read_no_wrap : (readCommand (readHr 0xFFFF 2) (machine .serve [(0, 1), (0xFFFF, 0xABCD)]).block).2
    = ⟨.unmappedAddress, 0x10000, 0, []⟩ := by decide +kernel

/-- A14: a write to a gap is not UNMAPPED_ADDRESS. -/
theorem test_write_gap : writeCommand (readHr 0x3001 1) (machine .serve sampleCells).block
    = ((machine .serve sampleCells).block, ⟨.unsupportedOperation, 0x3001, 0, []⟩) := by decide +kernel

/-- P6 row 2. -/
theorem test_write_build : (writeCommand (readHr 0x3000 1) Block.reset).2 = ⟨.phaseError, 0, 0, []⟩ := by decide +kernel

/-- Reserved opcode 0x06 after a reset input (P4 row 19). -/
theorem test_reserved : step { machine .serve sampleCells with inputs := [.command 0x06000000000000000000000000000000] }
    = .next { machine .serve sampleCells with responses := [⟨.badCommand, 0, 0, []⟩] } := rfl

/-! ### Assembly text (R93, R94) -/

theorem test_assemble_sequence : assembleText "DEFSEQ 0x9000, [1, 2]"
    = some [0x02109000000100010000000000000001, 0x02109001000100010000000000000002] := by decide +kernel
theorem test_assemble_refused : assembleText "DEFSEQ 0xFFFF, [1, 2]" = none
    ∧ assembleText "READ hr 0x3000, 1" = none := by decide +kernel
theorem test_assemble_decimal : assembleText "DEFANA 0x3100, w1, 18.29"
    = some [0x02103100006400640000000000000725] := by decide +kernel

/-- No two of the eight known rows overlap (R62 with R145). -/
theorem test_known_map : Config.knownMap.length = 8 ∧ (∀ r ∈ Config.knownMap, r.signed = false) ∧ Config.knownMap.Pairwise
    (fun r q => r.addr.toNat + r.words ≤ q.addr.toNat ∨ q.addr.toNat + q.words ≤ r.addr.toNat) := by decide

/-- V1 and V2: the first two known rows with the document's two values. -/
theorem test_known_values : (Config.knownMap.take 2).map (fun r => (knownRowDef r 60 1, knownRowDef r 1800 1))
    = [(defVoltage, ⟨0, 1, 0, 0, 0x3000, 100, 1, 1800⟩), (⟨0, 2, 0, 0, 0x3002, 100, 1, 60⟩, defPower)] := by decide

/-! ### Witnesses: states and operands that meet the hypotheses of the statements -/

theorem truncated_negative : IsTruncated encNegative.vnum.toInt encNegative.vden.toNat encNegative.sc.toNat (-1234) :=
  ⟨by decide, by decide, by decide⟩
theorem truncated_power : IsTruncated defPower.vnum.toInt defPower.vden.toNat defPower.sc.toNat 180000 :=
  ⟨by decide, by decide, by decide⟩
theorem truncated_voltage : IsTruncated defVoltage.vnum.toInt defVoltage.vden.toNat defVoltage.sc.toNat 6000 :=
  ⟨by decide, by decide, by decide⟩

/-- DecodeEncodeEveryCommand. -/
theorem test_witness_wellFormed_command : (Instr.define defPower).wellFormed = true := by decide

/-- EncodeDecodeEveryAssignedWord, StepRunsTheDecodedCommand. -/
theorem test_witness_decodes : decode commitWord = .ok (.commit Fields.zero)
    ∧ (presentCommand State.reset commitWord).inputs = [.command commitWord] := by decide

/-- PseudoInstructionsExpandToDefs: the last address of a sequence, and one past it. -/
theorem test_witness_sequences : 0xFFFE + [1, 2].length ≤ 0x10000
    ∧ (∀ n ∈ [(1 : Int), -2 ^ 63], -(2 ^ 63) ≤ n ∧ n < (2 ^ 63 : Int))
    ∧ [(1 : Int), 2] ≠ [] ∧ 0x10000 < 0xFFFF + [1, 2].length := by decide

/-- The encoder's statements: words in both widths and both signs, and the corner cases of EncoderCornerCases and
EncoderArithmeticLaws. -/
theorem test_witness_encoder : encodeValue (-1) 1 1 .two true = some [0xFFFF, 0xFFFF]
    ∧ encodeValue 60 1 100 .one false = some [0x1770] ∧ encodeValue 1800 1 100 .two false = some [0x0002, 0xBF20]
    ∧ ((-5 : Int) * (100 : Nat)).natAbs < 1000 ∧ 100 ≤ ((-1 : Int) * (100 : Nat)).natAbs
    ∧ truncated (-327689) 1000 100 = -32768 ∧ truncated (-2147483648) 100 100 = -2147483648 ∧ truncated (-1) 1 1 = -1
    ∧ (1 : Int) * (3 : Nat) ≤ 2 * (2 : Nat) ∧ (60 : Int) * (2 : Nat) = 120 * (1 : Nat) := by decide

/-- EncAnswersTheEncodedWords. -/
theorem test_witness_enc_answers : (machine .serve []).block.phase ≠ .failed ∧ (Instr.enc encNegative).wellFormed = true
    ∧ Width.one.words = encNegative.width.toNat ∧ rangeLo .one (encNegative.s == 1) ≤ -1234
    ∧ (-1234 : Int) ≤ rangeHi .one (encNegative.s == 1)
    ∧ IsTruncated encNegative.vnum.toInt encNegative.vden.toNat encNegative.sc.toNat (-1234) :=
  ⟨by decide, by decide, by decide, by decide, by decide, truncated_negative⟩

/-- EncErrorsChangeNothing: FAILED, malformed, out of range below and above. -/
theorem test_witness_enc_errors : (machine .failed []).block.phase = .failed
    ∧ (Instr.enc { encNegative with width := 3 }).wellFormed = false
    ∧ (-1234 : Int) < rangeLo .one false ∧ rangeHi .one false < 65536
    ∧ IsTruncated 65536 100 100 65536 :=
  ⟨by decide, by decide, by decide, by decide, ⟨by decide, by decide, by decide⟩⟩

/-- DefInsertsTheEntry, at the highest address a two-word entry can have. -/
theorem test_witness_def_inserts : (machine .build [(0xFFFD, 1)]).block.phase = .build
    ∧ (Instr.define { defPower with addr := 0xFFFE }).wellFormed = true
    ∧ Width.two.words = defPower.width.toNat ∧ (0xFFFE : BitVec 16).toNat + defPower.width.toNat ≤ 0x10000
    ∧ IsTruncated defPower.vnum.toInt defPower.vden.toNat defPower.sc.toNat 180000
    ∧ rangeLo .two (defPower.s == 1) ≤ 180000 ∧ (180000 : Int) ≤ rangeHi .two (defPower.s == 1)
    ∧ ∀ a, Covers { defPower with addr := 0xFFFE } a → cellAt [(0xFFFD, 1)] a = none := by
  refine ⟨by decide, by decide, by decide, by decide, truncated_power, by decide, by decide, fun a h => ?_⟩
  have h1 : 0xFFFE ≤ a := h.1
  simp only [cellAt, lookup]
  rw [if_neg (show ¬ 0xFFFD = a by omega)]
  simp

/-- DefFailuresAreFatal: malformed, past the top, and out of range by one. -/
theorem test_witness_def_failures : (Instr.define { defPower with vden := 0 }).wellFormed = false
    ∧ (Instr.define { defPower with addr := 0xFFFF }).wellFormed = true
    ∧ 0x10000 < (0xFFFF : BitVec 16).toNat + defPower.width.toNat
    ∧ IsTruncated 65536 100 100 65536 ∧ rangeHi .one false < 65536 :=
  ⟨by decide, by decide, by decide, ⟨by decide, by decide, by decide⟩, by decide⟩

/-- DefFailuresAreFatal, the overlap: one colliding address (O9), and two (O10). -/
theorem test_witness_def_overlap : Colliding [(0x3001, 7), (0x3003, 7)] 0x3002 2 0x3003 0x3003
    ∧ Colliding sampleCells 0x3002 2 0x3002 0x3003 :=
  ⟨collision_eq_some (by decide +kernel), collision_eq_some (by decide +kernel)⟩

/-- DefOutsideBuildIsRefused, CommitStartsServing, ReadRefusals, WriteIsAlwaysRejected: a state in each phase, a
well-formed and a malformed command. -/
theorem test_witness_phases : (machine .build []).block.phase = .build ∧ (machine .serve []).block.phase = .serve
    ∧ (machine .failed []).block.phase = .failed ∧ Fields.zero = ⟨0, 0, 0, 0, 0, 0, 0, 0⟩
    ∧ ({ Fields.zero with vnum := 1 } : Fields) ≠ ⟨0, 0, 0, 0, 0, 0, 0, 0⟩
    ∧ (Instr.read (readHr 0 0)).wellFormed = false ∧ (Instr.write (readHr 0 0)).wellFormed = false
    ∧ (Instr.write (readHr 0x9000 1)).wellFormed = true := by decide

/-- OverlapIsSharingAnAddress: an accepted DEF at 0x3002, a second that shares 0x3003, and one that is adjacent. -/
theorem test_witness_overlap : (transactInstr (.define defPower) Block.reset).2.status = .ok
    ∧ (Instr.define { defVoltage with addr := 0x3003 }).wellFormed = true
    ∧ defWords { defVoltage with addr := 0x3003 } ≠ none
    ∧ (Covers defPower 0x3003 ∧ Covers { defVoltage with addr := 0x3003 } 0x3003)
    ∧ ∀ a, ¬ (Covers defPower a ∧ Covers { defVoltage with addr := 0x3004 } a) := by
  refine ⟨by decide +kernel, by decide, by decide, ⟨⟨by decide, by decide⟩, ⟨by decide, by decide⟩⟩, ?_⟩
  rintro a ⟨h1, h2⟩
  have h3 : a < 0x3004 := h1.2
  have h4 : 0x3004 ≤ a := h2.1
  omega

/-- ReadAnswersTheMappedWords (A5) and AdapterAnswersEveryRequest: all of 0x3002 to 0x3004 mapped. -/
theorem test_witness_read_mapped : (machine .serve sampleCells).block.phase = .serve
    ∧ (Instr.read (readHr 0x3002 3)).wellFormed = true ∧ (3 : Word) ≠ 0
    ∧ AllMapped sampleCells (readHr 0x3002 3).addr.toNat (readHr 0x3002 3).sc.toNat := by
  refine ⟨by decide, by decide, by decide, ?_⟩
  unfold AllMapped
  decide +kernel

/-- ReadOfAGapFaults (A9) and AdapterAnswersEveryRequest: 0x3001 is the first gap, and 0x9999 is one. -/
theorem test_witness_read_gap : FirstGap sampleCells 0x3000 5 0x3001 ∧ ¬ AllMapped sampleCells 0x3000 5
    ∧ (Instr.read (readHr 0x3000 5)).wellFormed = true ∧ cellAt sampleCells 0x9999 = none := by
  refine ⟨memRead_notMapped (by decide +kernel), fun h => ?_, by decide, by decide +kernel⟩
  have := h 1 (by decide)
  revert this
  decide +kernel

/-- AddressesDoNotWrap: the request of P5 row 6, and the entry of P5b. -/
theorem test_witness_no_wrap : (Instr.read (readHr 0xFFFF 2)).wellFormed = true
    ∧ 0x10000 < (readHr 0xFFFF 2).addr.toNat + (readHr 0xFFFF 2).sc.toNat
    ∧ (Instr.define { defPower with addr := 0xFFFF }).wellFormed = true ∧ defPower.width = 2 := by decide

/-- ReadsAreIdempotent, ServeIsImmutable: a block in SERVE and commands between. -/
theorem test_witness_serving : (machine .serve sampleCells).block.phase = .serve
    ∧ ([commitWord, 0] : List CommandWord) ≠ [] := by decide

/-- HostRunIsTheTransactionRun, EveryStepAnswers, ResetValues, PhaseGraph: the shapes of the inputs. -/
theorem test_witness_inputs :
    ({ State.reset with inputs := [.command commitWord, .reset] } : State).inputs
      = [commitWord].map HostEvent.command ++ [.reset]
    ∧ ({ State.reset with inputs := [.reset] } : State).inputs = [.reset] ∧ State.reset.inputs = [] := by decide

/-- ReservedOpcodesAreRefused: the reserved values next to the assigned ones, and the last. -/
theorem test_witness_reserved : ((0 : CommandWord).extractLsb' 120 8).toNat = 0
    ∧ 6 ≤ ((0x06000000000000000000000000000000 : CommandWord).extractLsb' 120 8).toNat
    ∧ 6 ≤ ((0xFF000000000000000000000000000000 : CommandWord).extractLsb' 120 8).toNat := by decide

/-- FailedRefusesEverything: a block in FAILED, and a command that enters it (P6 row 4). -/
theorem test_witness_failed : (machine .failed sampleCells).block.phase = .failed
    ∧ Block.reset.phase ≠ .failed
    ∧ (transact 0x0230300000640001000000000000003C Block.reset).1.phase = .failed := by decide +kernel

/-- ErrorsRecordOnlyWhatIsFatal: an error that is fatal, and one that is not. -/
theorem test_witness_errors : (transact (encode (.define { defPower with vden := 0 })) Block.reset).2.status ≠ .ok
    ∧ decode (encode (.define { defPower with vden := 0 })) = .ok (.define { defPower with vden := 0 })
    ∧ (transact 0 Block.reset).2.status ≠ .ok ∧ decode 0 = .error (.reservedOpcode 0) := by decide +kernel

/-- FrameOfEveryInstruction: an instruction that gives a next state, with a failing and an accepted DEF. -/
theorem test_witness_frame : (∃ t, exec (.define defPower) State.reset = .next t)
    ∧ (defCommand defPower Block.reset).2.status = .ok
    ∧ (defCommand { defPower with width := 0 } Block.reset).2.status ≠ .ok ∧ ¬ Covers defPower 0x3004 := by
  refine ⟨⟨_, rfl⟩, by decide +kernel, by decide +kernel, fun h => ?_⟩
  have : (0x3004 : Nat) < 0x3004 := h.2
  omega

/-- MappedCellsKeepTheirWords, EqualCellsAreEqualMaps. -/
theorem test_witness_cells : cellAt sampleCells 0x3003 = some 0xBF20 ∧ Memory.wf sampleCells = true := by decide +kernel

/-- ReadReturnsWhatDefAnswered. -/
theorem test_witness_def_ok : (transactInstr (.define defPower) Block.reset).2.status = .ok
    ∧ 1 < defPower.width.toNat := by decide +kernel

/-- A machine that serves one entry, with a command to take. -/
def oneEntry : State :=
  { block := { Block.reset with cell := setCell [] 0x3000 0x1770, phase := .serve, nent := 1 }
    inputs := [.command commitWord]
    responses := [] }

/-- EveryStepKeepsTheInvariants: a machine other than the reset one that has them, and steps. -/
theorem test_witness_invariants : oneEntry.Inv ∧ ∃ t, step oneEntry = .next t := by
  have hc : someCount oneEntry.block.cell = 1 := by
    show someCount (setCell [] 0x3000 0x1770) = 1
    rw [someCount_setCell (by decide) (by simp)]
    simp
  refine ⟨⟨⟨by decide, by decide, fun h => absurd rfl h, fun _ => ⟨rfl, rfl⟩, fun _ => rfl, .inl rfl, ?_, ?_, ?_, ?_⟩, ?_⟩,
    ⟨_, rfl⟩⟩
  · intro h; exact absurd h (by decide)
  · intro h; exact absurd h (by decide)
  · rw [hc]; decide
  · rw [hc]; decide
  · intro r hr; cases hr

/-- AcceptableBuildIsServed, BuildOrderIsFree: two specs in both orders. -/
theorem test_witness_acceptable : Acceptable [defVoltage, defPower] ∧ [defVoltage, defPower].Perm [defPower, defVoltage] := by
  refine ⟨⟨by decide, by decide, by decide +kernel, ?_⟩, .swap _ _ _⟩
  refine .cons (fun g hg => ?_) (.cons (fun g hg => by cases hg) .nil)
  obtain rfl := List.mem_singleton.mp hg
  rintro a ⟨h1, h2⟩
  have h3 : a < 0x3001 := h1.2
  have h4 : 0x3002 ≤ a := h2.1
  omega

/-- KnownRowsAreAnAcceptableBuild: every known row with the value 1/1. -/
theorem test_witness_known_rows : ∀ r ∈ Config.knownMap, (1 : BitVec 16) ≠ 0 ∧ defWords (knownRowDef r 1 1) ≠ none := by
  decide +kernel

/-- EveryStepKeepsTheUnionOfEntries: a block that holds one entry, a step that accepts a second, and a step of a
command that is no DEF. -/
theorem test_witness_union : HoldsEntries [defVoltage] (defCommand defVoltage Block.reset).1
    ∧ (transact (encode (.define defPower)) (defCommand defVoltage Block.reset).1).2.status = .ok
    ∧ decode commitWord = .ok (.commit Fields.zero) := by
  have hw : defWords defVoltage = some [0x1770] := by decide +kernel
  refine ⟨⟨⟨by decide, by decide, by decide +kernel, .cons (fun g hg => by cases hg) .nil⟩, fun a x => ?_, by decide +kernel⟩,
    by decide +kernel, by decide⟩
  have hc : (defCommand defVoltage Block.reset).1.cell = [(0x3000, 0x1770)] := by decide +kernel
  have hcell : cellAt [(0x3000, 0x1770)] a = if a = 0x3000 then some (0x1770 : Word) else none :=
    (cellAt_setCell (by decide) [] 0x1770 a).trans (by simp)
  rw [hc, hcell]
  constructor
  · intro h
    split at h
    · rename_i ha; subst ha; cases h
      exact ⟨defVoltage, by simp, _, hw, by decide, by decide⟩
    · cases h
  · rintro ⟨f, hf, ws, hws, hle, hx⟩
    obtain rfl := List.mem_singleton.mp hf
    rw [hw] at hws; cases hws
    have h0 : (0x3000 : Nat) ≤ a := hle
    have hx' : ([0x1770] : List Word)[a - 0x3000]? = some x := hx
    obtain ⟨hlt, rfl⟩ := List.getElem?_eq_some_iff.mp hx'
    have ha : a = 0x3000 := by simp at hlt; omega
    subst ha; rfl

/-- UnacceptableBuildNeverServes: V5, two specs that claim 0x3000. -/
theorem test_witness_unacceptable : ¬ Acceptable [defVoltage, defVoltage] := fun h =>
  (List.pairwise_cons.mp h.disjoint).1 defVoltage (by simp) 0x3000 ⟨⟨by decide, by decide⟩, ⟨by decide, by decide⟩⟩

end Sys2Proof.Tests
end

section
/-! The scope statements (spec/00_scope.md): a step against the meaning of the command it takes. -/

namespace Sys2Proof.Proofs

open Sys2Proof.Machine

/-- Settles O31: the port hands over the word and the machine after it (`takeInput_cons`), and `step` dispatches on
what the word decodes to. -/
theorem stepRunsTheDecodedCommand : Obligations.StepRunsTheDecodedCommand := by
  intro s w rest i hinputs hdecode
  have htake : takeInput s = some (.command w, { s with inputs := rest }) := takeInput_cons hinputs
  simp only [step, htake, hdecode]

end Sys2Proof.Proofs
end

section
/-!
What one command does to the block, said once for every command and phase: `CommandEffect`. The invariants, the frames
and the runs of the state statements (spec/10_state.md) are each a case split over it.
-/

namespace Sys2Proof.Proofs

open Sys2Proof.Machine

/-! ### What a fatal error of a DEF names (spec/41_build.md R143 to R146, spec/10_state.md R26) -/

/-- `e` is a configuration error that a DEF can record over the cells `m`, and `lo`, `hi` are addresses it may name. -/
structure FatalNames (m : Memory) (e : Status) (lo hi : Nat) : Prop where
  configuration : e.isConfigurationError = true
  inSpace : hi ≤ 0xFFFF
  adjacent : hi = lo ∨ hi = lo + 1
  single : e ≠ .cfgOverlap → hi = lo
  taken : e = .cfgOverlap → (cellAt m lo).isSome = true ∧ (cellAt m hi).isSome = true
  top : e = .cfgAddr → lo = 0xFFFF

/-- The errors that are not overlaps name the DEF's own address. -/
theorem fatalNames_own {m : Memory} {e : Status} {addr : Nat} (he : e.isConfigurationError = true)
    (hover : e ≠ .cfgOverlap) (haddr : addr ≤ 0xFFFF) (htop : e = .cfgAddr → addr = 0xFFFF) :
    FatalNames m e addr addr :=
  ⟨he, haddr, .inl rfl, fun _ => rfl, fun h => absurd h hover, htop⟩

/-- An entry has at most two cells, so that the lowest and the highest taken one are equal or adjacent. -/
theorem fatalNames_overlap {m : Memory} {addr n lo hi : Nat} (hn : n ≤ 2) (h : Colliding m addr n lo hi) :
    FatalNames m .cfgOverlap lo hi := by
  obtain ⟨hlo, hlo'⟩ := h.loIn
  obtain ⟨hhi, hhi'⟩ := h.hiIn
  have hle : lo ≤ hi := (h.between hi hhi hhi' h.hiTaken).1
  have hspace : hi < 0x10000 := lt_of_cellAt_isSome h.hiTaken
  exact ⟨rfl, by omega, by omega, fun hne => absurd rfl hne, fun _ => ⟨h.loTaken, h.hiTaken⟩, fun he => by cases he⟩

/-! ### The shape of each kind of response (spec/60_exceptions.md R201, R203) -/

theorem raise_shaped {e : Status} {a0 : Nat} (b : Block) (hspace : a0 ≤ 0x10000)
    (hreg : e ≠ .unmappedAddress → a0 ≤ 0xFFFF) (hzero : e.a0IsZero = true → a0 = 0) :
    (raise e a0 0 b).2.Shaped where
  dataOnlyWithOk _ := rfl
  a0Bound := by simp only [raise_a0, BitVec.toNat_ofNat]; omega
  a0InSpace h := by have := hreg h; simp only [raise_a0, BitVec.toNat_ofNat]; omega
  a1Bound := by simp
  a0Zero h := by rw [raise_a0, hzero h]; rfl
  a1Zero _ := rfl

theorem raise_zero_shaped (e : Status) (b : Block) : (raise e 0 0 b).2.Shaped :=
  raise_shaped b (Nat.zero_le _) (fun _ => Nat.zero_le _) (fun _ => rfl)

theorem succeed_shaped {a0 a1 : Nat} (ws : List Word) (b : Block) (h0 : a0 ≤ 0xFFFF) (h1 : a1 ≤ 0xFFFF) :
    (succeed a0 a1 ws b).2.Shaped where
  dataOnlyWithOk h := absurd rfl h
  a0Bound := by simp only [succeed_a0, BitVec.toNat_ofNat]; omega
  a0InSpace _ := by simp only [succeed_a0, BitVec.toNat_ofNat]; omega
  a1Bound := by simp only [succeed_a1, BitVec.toNat_ofNat]; omega
  a0Zero h := by cases h
  a1Zero h := by cases h

theorem configurationError_addresses_used {e : Status} (h : e.isConfigurationError = true) :
    e.a0IsZero = false ∧ e.a1IsZero = false := by
  revert h
  cases e <;> decide

theorem fatal_shaped {e : Status} {lo hi : Nat} {b : Block} (h : FatalNames b.cell e lo hi) :
    (fatal e lo hi b).2.Shaped := by
  obtain ⟨h0, h1⟩ := configurationError_addresses_used h.configuration
  have hhi : hi ≤ 0xFFFF := h.inSpace
  have hlo : lo ≤ hi := by have := h.adjacent; omega
  refine ⟨fun _ => rfl, ?_, fun _ => ?_, ?_, fun hz => ?_, fun hz => ?_⟩
  · simp only [fatal_a0, BitVec.toNat_ofNat]; omega
  · simp only [fatal_a0, BitVec.toNat_ofNat]; omega
  · simp only [fatal_a1, BitVec.toNat_ofNat]; omega
  · rw [fatal_status, h0] at hz; cases hz
  · rw [fatal_status, h1] at hz; cases hz

/-- 0x10000 has no backing value, so that a scan which starts at a register ends there at the latest (R57, R58). -/
theorem firstGap_le {m : Memory} {addr n x : Nat} (haddr : addr ≤ 0xFFFF) (h : FirstGap m addr n x) :
    x ≤ 0x10000 := by
  by_contra hx
  have htop : (0x10000 : Nat) < 0x10000 := lt_of_cellAt_isSome (h.lowest 0x10000 (by omega) (by omega))
  omega

theorem serveRequest_shaped {q : Request} (b : Block) (haddr : q.addr ≤ 0xFFFF) (hcount : 0 < q.count) :
    (serveRequest q b).2.Shaped := by
  rcases serveRequest_cases q b with ⟨x, hgap, e⟩ | ⟨ws, hlen, hcells, e⟩
  · rw [e]
    exact raise_shaped b (firstGap_le haddr hgap) (fun h => absurd rfl h) (fun h => by cases h)
  · have hlast : q.addr + (q.count - 1) < 0x10000 := by
      refine lt_of_cellAt_isSome (m := b.cell) ?_
      rw [hcells _ (by omega), List.getElem?_eq_getElem (by omega)]
      rfl
    rw [e]
    exact succeed_shaped ws b haddr (by omega)

/-! ### The effect of a command -/

/-- What a command that decodes to `d` does to the block `b`, and the response it gives. -/
inductive CommandEffect (d : Except DecodeError Instr) (b : Block) : Block × Response → Prop
  /-- the block is left whole, and it was no DEF that was accepted (R202, R204) -/
  | unchanged {r : Response} (shaped : r.Shaped) (notAccepted : ∀ f, d = .ok (.define f) → r.status ≠ .ok) :
      CommandEffect d b (b, r)
  /-- COMMIT in BUILD (R150) -/
  | committed {f : Fields} (decoded : d = .ok (.commit f)) (building : b.phase = .build) :
      CommandEffect d b (succeed 0 0 [] { b with phase := .serve })
  /-- a DEF that fails in BUILD (R146) -/
  | failed {f : Fields} {e : Status} {lo hi : Nat} (decoded : d = .ok (.define f)) (building : b.phase = .build)
      (names : FatalNames b.cell e lo hi) : CommandEffect d b (fatal e lo hi b)
  /-- a DEF that is accepted (R145) -/
  | inserted {f : Fields} {ws : List Word} (decoded : d = .ok (.define f)) (building : b.phase = .build)
      (wellFormed : (Instr.define f).wellFormed = true) (fits : f.addr.toNat + f.width.toNat ≤ 0x10000)
      (encoded : defWords f = some ws) (free : ∀ a, Covers f a → cellAt b.cell a = none) :
      CommandEffect d b
        (succeed f.addr.toNat (f.addr.toNat + f.width.toNat - 1) ws (insertEntry f.addr.toNat ws b))

/-- A refusal without addresses leaves the block, whatever the command. -/
theorem CommandEffect.of_raise_zero (d : Except DecodeError Instr) {e : Status} (b : Block) (he : e ≠ .ok) :
    CommandEffect d b (raise e 0 0 b) :=
  .unchanged (raise_zero_shaped e b) fun _ _ => he

theorem addr_le (f : Fields) : f.addr.toNat ≤ 0xFFFF := by have := f.addr.isLt; omega

theorem reservedCommand_effect (d : Except DecodeError Instr) (b : Block) : CommandEffect d b (reservedCommand b) := by
  rcases reservedCommand_cases b with ⟨-, e⟩ | ⟨-, e⟩ <;> rw [e] <;> exact .of_raise_zero _ _ (by decide)

theorem encCommand_effect (f : Fields) (b : Block) : CommandEffect (.ok (.enc f)) b (encCommand f b) := by
  rcases encCommand_cases f b with ⟨-, e⟩ | ⟨-, -, e⟩ | ⟨v, -, -, -, e⟩ | ⟨v, ws, -, -, -, e⟩ <;> rw [e]
  case inr.inr.inr =>
    exact .unchanged (succeed_shaped ws b (Nat.zero_le _) (Nat.zero_le _)) fun g hg => by cases hg
  all_goals exact .of_raise_zero _ _ (by decide)

theorem placeEntry_fatal {addr : Nat} {v : Scalar} {b : Block} (haddr : addr ≤ 0xFFFF)
    (hfail : (placeEntry addr v b).2.status ≠ .ok) :
    ∃ e lo hi, FatalNames b.cell e lo hi ∧ placeEntry addr v b = fatal e lo hi b := by
  have hwidth : v.width.words ≤ 2 := (Width.words_bounds _).2
  rcases placeEntry_cases addr v b with ⟨hout, e⟩ | ⟨-, -, e⟩ | ⟨ws, lo, hi, -, -, hcol, e⟩ | ⟨ws, -, -, -, e⟩
  · exact ⟨.cfgAddr, addr, addr, fatalNames_own rfl (by decide) haddr (fun _ => by omega), e⟩
  · exact ⟨.cfgRange, addr, addr, fatalNames_own rfl (by decide) haddr (fun h => by cases h), e⟩
  · exact ⟨.cfgOverlap, lo, hi, fatalNames_overlap hwidth (collision_eq_some hcol), e⟩
  · rw [e] at hfail; exact absurd rfl hfail

theorem defCommand_effect (f : Fields) (b : Block) : CommandEffect (.ok (.define f)) b (defCommand f b) := by
  by_cases hok : (defCommand f b).2.status = .ok
  · obtain ⟨hbuild, hwf, hfits, ws, hws, hfree, e⟩ := defCommand_accepted hok
    rw [e]
    exact .inserted rfl hbuild hwf hfits hws hfree
  · rcases defCommand_cases f b with ⟨-, e⟩ | ⟨-, e⟩ | ⟨hbuild, -, e⟩ | ⟨v, hbuild, -, e⟩
    · rw [e]; exact .of_raise_zero _ _ (by decide)
    · rw [e]; exact .of_raise_zero _ _ (by decide)
    · rw [e]
      exact .failed rfl hbuild (fatalNames_own rfl (by decide) (addr_le f) fun h => by cases h)
    · rw [e] at hok
      obtain ⟨st, lo, hi, hnames, e'⟩ := placeEntry_fatal (addr_le f) hok
      rw [e, e']
      exact .failed rfl hbuild hnames

theorem commitCommand_effect (f : Fields) (b : Block) : CommandEffect (.ok (.commit f)) b (commitCommand f b) := by
  rcases commitCommand_cases f b with ⟨-, e⟩ | ⟨-, e⟩ | ⟨-, -, e⟩ | ⟨hbuild, -, e⟩ <;> rw [e]
  case inr.inr.inr => exact .committed rfl hbuild
  all_goals exact .of_raise_zero _ _ (by decide)

theorem readCommand_effect (f : Fields) (b : Block) : CommandEffect (.ok (.read f)) b (readCommand f b) := by
  rcases readCommand_cases f b with ⟨-, e⟩ | ⟨-, e⟩ | ⟨-, -, e⟩ | ⟨q, -, hq, e⟩ <;> rw [e]
  case inr.inr.inr =>
    obtain ⟨-, haddr, -, hcount⟩ := requestOperands_eq_some hq
    have hblock : (serveRequest q b).1 = b := by
      rcases serveRequest_cases q b with ⟨x, -, e'⟩ | ⟨ws, -, -, e'⟩ <;> rw [e'] <;> rfl
    have hkept : serveRequest q b = (b, (serveRequest q b).2) := Prod.ext hblock rfl
    rw [hkept]
    exact .unchanged (serveRequest_shaped b (haddr ▸ addr_le f) hcount) fun g hg => by cases hg
  all_goals exact .of_raise_zero _ _ (by decide)

theorem writeCommand_effect (f : Fields) (b : Block) : CommandEffect (.ok (.write f)) b (writeCommand f b) := by
  rcases writeCommand_cases f b with ⟨-, e⟩ | ⟨-, e⟩ | ⟨-, -, e⟩ | ⟨q, -, hq, e⟩ <;> rw [e]
  case inr.inr.inr =>
    obtain ⟨-, haddr, -, -⟩ := requestOperands_eq_some hq
    have hle : q.addr ≤ 0xFFFF := haddr ▸ addr_le f
    exact .unchanged (raise_shaped b (by omega) (fun _ => hle) (fun h => by cases h)) fun g hg => by cases hg
  all_goals exact .of_raise_zero _ _ (by decide)

theorem transactInstr_effect (i : Instr) (b : Block) : CommandEffect (.ok i) b (transactInstr i b) := by
  cases i with
  | enc f => exact encCommand_effect f b
  | define f => exact defCommand_effect f b
  | commit f => exact commitCommand_effect f b
  | read f => exact readCommand_effect f b
  | write f => exact writeCommand_effect f b

/-- Every command word has one of the four effects, in every block. -/
theorem transact_effect (w : CommandWord) (b : Block) : CommandEffect (decode w) b (transact w b) := by
  unfold transact
  cases decode w with
  | error e => exact reservedCommand_effect _ b
  | ok i => exact transactInstr_effect i b

/-! ### The words of an accepted entry -/

theorem defWords_length_bounds {f : Fields} {ws : List Word} (h : defWords f = some ws) :
    1 ≤ ws.length ∧ ws.length ≤ 2 := by
  unfold defWords at h
  split at h
  · cases h
  · rw [encodeScalar_length h]
    exact Width.words_bounds _

/-- Reading after an accepted entry is inserted: its words inside its range, every other cell as before (R59, R145). -/
theorem cellAt_insertEntry {f : Fields} {ws : List Word} (b : Block) (a : Nat)
    (hfits : f.addr.toNat + f.width.toNat ≤ 0x10000) (hws : defWords f = some ws) :
    (Covers f a → cellAt (insertEntry f.addr.toNat ws b).cell a = ws[a - f.addr.toNat]?) ∧
    (¬ Covers f a → cellAt (insertEntry f.addr.toNat ws b).cell a = cellAt b.cell a) := by
  have hlen : ws.length = f.width.toNat := defWords_length hws
  rw [insertEntry_cell, cellAt_memWrite _ _ _ _ (by omega), hlen]
  exact ⟨fun h => if_pos h, fun h => if_neg h⟩

/-- Where an entry puts a word is inside its range. -/
theorem covers_of_getElem? {f : Fields} {ws : List Word} {a : Nat} {x : Word} (hws : defWords f = some ws)
    (hle : f.addr.toNat ≤ a) (hx : ws[a - f.addr.toNat]? = some x) : Covers f a := by
  obtain ⟨hlt, -⟩ := List.getElem?_eq_some_iff.mp hx
  rw [defWords_length hws] at hlt
  exact ⟨hle, by omega⟩

/-! ### The step, input by input (spec/70_reset_and_hazards.md R236, R237) -/

theorem step_of_no_input {s : State} (h : s.inputs = []) : step s = .next s := by
  rcases step_cases s with ⟨-, e⟩ | ⟨rest, h', -⟩ | ⟨w, rest, h', -⟩
  · exact e
  all_goals rw [h] at h'; cases h'

theorem step_of_reset {s : State} {rest : List HostEvent} (h : s.inputs = .reset :: rest) :
    step s = .next (applyReset { s with inputs := rest }) := by
  rcases step_cases s with ⟨h', -⟩ | ⟨rest', h', e⟩ | ⟨w, rest', h', -⟩ <;> rw [h] at h' <;> cases h'
  exact e

theorem step_of_command {s : State} {w : CommandWord} {rest : List HostEvent} (h : s.inputs = .command w :: rest) :
    step s = .next (answer { s with inputs := rest } (transact w s.block)) := by
  rcases step_cases s with ⟨h', -⟩ | ⟨rest', h', -⟩ | ⟨w', rest', h', e⟩ <;> rw [h] at h' <;> cases h'
  exact e

end Sys2Proof.Proofs
end

section
/-! The invariants of the block (spec/10_state.md R25 to R27, R36): they hold after reset and every step keeps them. -/

namespace Sys2Proof.Proofs

open Sys2Proof.Machine

theorem reset_block_inv : Block.reset.Inv where
  canonical := reset_memory_wf
  failedIffError := by decide
  errorListed h := absurd rfl h
  clearBeforeError _ := ⟨rfl, rfl⟩
  oneAddressUnlessOverlap _ := rfl
  adjacentAddresses := .inl rfl
  overlapNamesTakenCells h := by cases h
  topNamed h := by cases h
  countLow := Nat.zero_le _
  countHigh := by rw [Block.reset_cell, someCount_nil]; exact Nat.zero_le _

/-- Outside FAILED the error registers are clear (R25, R26). -/
theorem ecode_eq_zero {b : Block} (hinv : b.Inv) (h : b.phase ≠ .failed) : b.ecode = 0 := by
  by_contra hne
  exact h (hinv.failedIffError.mpr hne)

/-- A block whose registers for phase and errors are those of no error. -/
theorem inv_of_no_error {b : Block} (hwf : Memory.wf b.cell = true) (hphase : b.phase ≠ .failed) (he : b.ecode = 0)
    (hlo : b.eaddrLo = 0) (hhi : b.eaddrHi = 0) (hlow : b.nent.toNat ≤ someCount b.cell)
    (hhigh : someCount b.cell ≤ 2 * b.nent.toNat) : b.Inv where
  canonical := hwf
  failedIffError := ⟨fun h => absurd h hphase, fun h => absurd he h⟩
  errorListed h := absurd he h
  clearBeforeError _ := ⟨hlo, hhi⟩
  oneAddressUnlessOverlap _ := by rw [hlo, hhi]
  adjacentAddresses := .inl (by rw [hlo, hhi])
  overlapNamesTakenCells h := by rw [he] at h; cases h
  topNamed h := by rw [he] at h; cases h
  countLow := hlow
  countHigh := hhigh

theorem commit_keeps_inv {b : Block} (hinv : b.Inv) (hbuild : b.phase = .build) :
    ({ b with phase := .serve } : Block).Inv := by
  have he : b.ecode = 0 := ecode_eq_zero hinv (by rw [hbuild]; decide)
  obtain ⟨hlo, hhi⟩ := hinv.clearBeforeError he
  exact inv_of_no_error hinv.canonical Phase.noConfusion he hlo hhi hinv.countLow hinv.countHigh

/-- The entry counts one and fills one or two free cells. NENT does not wrap, because it is at most the number of
cells. -/
theorem insertEntry_keeps_inv {f : Fields} {ws : List Word} {b : Block} (hinv : b.Inv) (hbuild : b.phase = .build)
    (hfits : f.addr.toNat + f.width.toNat ≤ 0x10000) (hws : defWords f = some ws)
    (hfree : ∀ a, Covers f a → cellAt b.cell a = none) : (insertEntry f.addr.toNat ws b).Inv := by
  have he : b.ecode = 0 := ecode_eq_zero hinv (by rw [hbuild]; decide)
  obtain ⟨hlo, hhi⟩ := hinv.clearBeforeError he
  have hlen : ws.length = f.width.toNat := defWords_length hws
  obtain ⟨hone, htwo⟩ := defWords_length_bounds hws
  have hspace : f.addr.toNat + ws.length ≤ 0x10000 := by omega
  have hcount : someCount (memWrite b.cell f.addr.toNat ws) = someCount b.cell + ws.length :=
    someCount_memWrite hspace fun a h1 h2 => hfree a ⟨h1, by omega⟩
  have hnent : (b.nent + 1).toNat = b.nent.toNat + 1 := by
    have hsmall : b.nent.toNat ≤ 0x10000 := hinv.countLow.trans (someCount_le _)
    show (b.nent.toNat + 1) % 2 ^ 17 = b.nent.toNat + 1
    omega
  have hlow := hinv.countLow
  have hhigh := hinv.countHigh
  refine inv_of_no_error (memWrite_wf hinv.canonical hspace) ?_ he hlo hhi ?_ ?_
  · rw [insertEntry_phase, hbuild]; decide
  · rw [insertEntry_cell, insertEntry_nent, hcount, hnent]; omega
  · rw [insertEntry_cell, insertEntry_nent, hcount, hnent]; omega

theorem configurationError_code_ne_zero {e : Status} (h : e.isConfigurationError = true) : e.code ≠ 0 := by
  revert h
  cases e <;> decide

theorem code_eq_cfgOverlap {e : Status} : e.code = Status.cfgOverlap.code ↔ e = .cfgOverlap := by
  cases e <;> decide

theorem code_eq_cfgAddr {e : Status} : e.code = Status.cfgAddr.code ↔ e = .cfgAddr := by
  cases e <;> decide

theorem fatal_keeps_inv {e : Status} {lo hi : Nat} {b : Block} (hinv : b.Inv) (h : FatalNames b.cell e lo hi) :
    (fatal e lo hi b).1.Inv := by
  have hne : e.code ≠ 0 := configurationError_code_ne_zero h.configuration
  have hhi : (BitVec.ofNat 16 hi).toNat = hi := by have := h.inSpace; rw [BitVec.toNat_ofNat]; omega
  have hlo : (BitVec.ofNat 16 lo).toNat = lo := by
    have := h.inSpace; have := h.adjacent; rw [BitVec.toNat_ofNat]; omega
  exact
    { canonical := hinv.canonical
      failedIffError := ⟨fun _ => hne, fun _ => rfl⟩
      errorListed := fun _ => ⟨e, h.configuration, rfl⟩
      clearBeforeError := fun h0 => absurd h0 hne
      oneAddressUnlessOverlap := fun hc => by
        rw [fatal_eaddrHi, fatal_eaddrLo, h.single fun he => hc (code_eq_cfgOverlap.mpr he)]
      adjacentAddresses := by rw [fatal_eaddrHi, fatal_eaddrLo, hhi, hlo]; exact h.adjacent
      overlapNamesTakenCells := fun hc => by
        rw [fatal_eaddrHi, fatal_eaddrLo, hhi, hlo]; exact h.taken (code_eq_cfgOverlap.mp hc)
      topNamed := fun hc => by rw [fatal_eaddrLo, h.top (code_eq_cfgAddr.mp hc)]; rfl
      countLow := hinv.countLow
      countHigh := hinv.countHigh }

theorem CommandEffect.keeps_inv {d : Except DecodeError Instr} {b : Block} {r : Block × Response}
    (h : CommandEffect d b r) (hinv : b.Inv) : r.1.Inv := by
  cases h with
  | unchanged => exact hinv
  | committed _ building => exact commit_keeps_inv hinv building
  | failed _ _ names => exact fatal_keeps_inv hinv names
  | inserted _ building _ fits encoded free => exact insertEntry_keeps_inv hinv building fits encoded free

theorem CommandEffect.response_shaped {d : Except DecodeError Instr} {b : Block} {r : Block × Response}
    (h : CommandEffect d b r) : r.2.Shaped := by
  cases h with
  | unchanged shaped _ => exact shaped
  | committed => exact succeed_shaped _ _ (Nat.zero_le _) (Nat.zero_le _)
  | failed _ _ names => exact fatal_shaped names
  | inserted _ _ _ fits _ _ => exact succeed_shaped _ _ (addr_le _) (by omega)

/-- Settles O47: of the three inputs a step can meet, only a command touches what the invariants speak of beside the
reset, and there each of the four effects keeps them. -/
theorem everyStepKeepsTheInvariants : Obligations.EveryStepKeepsTheInvariants := by
  intro s t hinv hstep
  rcases step_cases s with ⟨-, e⟩ | ⟨rest, -, e⟩ | ⟨w, rest, -, e⟩ <;> rw [e] at hstep <;> cases hstep
  · exact hinv
  · exact ⟨reset_block_inv, hinv.shaped⟩
  · have heffect := transact_effect w s.block
    refine ⟨heffect.keeps_inv hinv.block, fun r hr => ?_⟩
    rcases List.mem_append.mp hr with hold | hnew
    · exact hinv.shaped r hold
    · obtain rfl := List.mem_singleton.mp hnew
      exact heffect.response_shaped

/-- Settles O46: the block's part is the reset block, and there is no response yet. -/
theorem invariantsHoldAfterReset : Obligations.InvariantsHoldAfterReset :=
  ⟨reset_block_inv, fun r hr => by cases hr⟩

end Sys2Proof.Proofs
end

section
/-! CELL is the union of the accepted entries (spec/41_build.md R149, spec/10_state.md R23, R27). -/

namespace Sys2Proof.Proofs

open Sys2Proof.Machine

/-- Every cell of an entry's range holds a word of the union. -/
theorem inUnion_of_covers {fs : List Fields} {f : Fields} {a : Nat} (hacc : Acceptable fs) (hf : f ∈ fs)
    (ha : Covers f a) : ∃ x, InUnion fs a x := by
  obtain ⟨ws, hws⟩ := Option.ne_none_iff_exists'.mp (hacc.inRange f hf)
  have hlen : ws.length = f.width.toNat := defWords_length hws
  obtain ⟨hle, hlt⟩ := ha
  exact ⟨_, f, hf, ws, hws, hle, List.getElem?_eq_getElem (by omega)⟩

theorem inUnion_append_singleton {fs : List Fields} {f : Fields} {ws : List Word} {a : Nat} {x : Word}
    (hws : defWords f = some ws) :
    InUnion (fs ++ [f]) a x ↔ InUnion fs a x ∨ (f.addr.toNat ≤ a ∧ ws[a - f.addr.toNat]? = some x) := by
  constructor
  · rintro ⟨g, hg, ws', hws', hput⟩
    rcases List.mem_append.mp hg with hold | hnew
    · exact .inl ⟨g, hold, ws', hws', hput⟩
    · obtain rfl := List.mem_singleton.mp hnew
      obtain rfl : ws = ws' := Option.some.inj (hws.symm.trans hws')
      exact .inr hput
  · rintro (⟨g, hg, hput⟩ | hput)
    · exact ⟨g, List.mem_append_left _ hg, hput⟩
    · exact ⟨f, by simp, ws, hws, hput⟩

/-- An entry that meets only free cells is acceptable beside those that fill the others. -/
theorem acceptable_append {fs : List Fields} {f : Fields} {ws : List Word} {b : Block} (h : HoldsEntries fs b)
    (hwf : (Instr.define f).wellFormed = true) (hfits : f.addr.toNat + f.width.toNat ≤ 0x10000)
    (hws : defWords f = some ws) (hfree : ∀ a, Covers f a → cellAt b.cell a = none) : Acceptable (fs ++ [f]) := by
  have hall {P : Fields → Prop} (hold : ∀ g ∈ fs, P g) (hnew : P f) : ∀ g ∈ fs ++ [f], P g := fun g hg =>
    (List.mem_append.mp hg).elim (hold g) fun h1 => List.mem_singleton.mp h1 ▸ hnew
  refine ⟨hall h.acceptable.wellFormed hwf, hall h.acceptable.fits hfits,
    hall h.acceptable.inRange (by rw [hws]; exact Option.some_ne_none _), ?_⟩
  refine List.pairwise_append.mpr ⟨h.acceptable.disjoint, List.pairwise_singleton _ _, fun g hg f' hf' a => ?_⟩
  obtain rfl := List.mem_singleton.mp hf'
  rintro ⟨hold, hnew⟩
  obtain ⟨x, hx⟩ := inUnion_of_covers h.acceptable hg hold
  have hsome : cellAt b.cell a = some x := (h.cells a x).mpr hx
  rw [hfree a hnew] at hsome
  cases hsome

theorem insertEntry_holdsEntries {fs : List Fields} {f : Fields} {ws : List Word} {b : Block} (h : HoldsEntries fs b)
    (hwf : (Instr.define f).wellFormed = true) (hfits : f.addr.toNat + f.width.toNat ≤ 0x10000)
    (hws : defWords f = some ws) (hfree : ∀ a, Covers f a → cellAt b.cell a = none) :
    HoldsEntries (fs ++ [f]) (insertEntry f.addr.toNat ws b) := by
  refine ⟨acceptable_append h hwf hfits hws hfree, fun a x => ?_, ?_⟩
  · obtain ⟨hin, hout⟩ := cellAt_insertEntry b a hfits hws
    rw [inUnion_append_singleton hws, ← h.cells a x]
    by_cases hc : Covers f a
    · rw [hin hc, hfree a hc]
      exact ⟨fun hx => .inr ⟨hc.1, hx⟩, fun hx => hx.elim (fun hnone => by cases hnone) And.right⟩
    · rw [hout hc]
      exact ⟨.inl, fun hx => hx.elim id fun hput => absurd (covers_of_getElem? hws hput.1 hput.2) hc⟩
  · rw [insertEntry_nent, h.count, List.length_append, List.length_singleton, BitVec.ofNat_add]
    rfl

/-- Only CELL and NENT matter to which entries a block holds. -/
theorem holdsEntries_congr {fs : List Fields} {b b' : Block} (h : HoldsEntries fs b) (hcell : b'.cell = b.cell)
    (hnent : b'.nent = b.nent) : HoldsEntries fs b' :=
  ⟨h.acceptable, hcell ▸ h.cells, hnent ▸ h.count⟩

theorem CommandEffect.accepted_holdsEntries {f : Fields} {b : Block} {r : Block × Response} {fs : List Fields}
    (h : CommandEffect (.ok (.define f)) b r) (hold : HoldsEntries fs b) (hok : r.2.status = .ok) :
    HoldsEntries (fs ++ [f]) r.1 := by
  cases h with
  | unchanged _ notAccepted => exact absurd hok (notAccepted f rfl)
  | committed decoded _ => cases decoded
  | failed _ _ names =>
    obtain rfl : _ = Status.ok := hok
    cases names.configuration
  | inserted decoded _ wellFormed fits encoded free =>
    cases decoded
    exact insertEntry_holdsEntries hold wellFormed fits encoded free

theorem CommandEffect.keeps_holdsEntries {d : Except DecodeError Instr} {b : Block} {r : Block × Response}
    {fs : List Fields} (h : CommandEffect d b r) (hold : HoldsEntries fs b)
    (hnot : ∀ f, d = .ok (.define f) → r.2.status ≠ .ok) : HoldsEntries fs r.1 := by
  cases h with
  | unchanged => exact hold
  | committed => exact holdsEntries_congr hold rfl rfl
  | failed => exact holdsEntries_congr hold rfl rfl
  | inserted decoded => exact absurd rfl (hnot _ decoded)

theorem reset_holdsEntries : HoldsEntries [] Block.reset where
  acceptable := ⟨by simp, by simp, by simp, .nil⟩
  cells a x := by
    rw [Block.reset_cell, cellAt_nil]
    exact ⟨fun h => (by cases h), fun ⟨f, hf, _⟩ => (by cases hf)⟩
  count := rfl

/-- Settles O53. -/
theorem resetHoldsNoEntry : Obligations.ResetHoldsNoEntry := reset_holdsEntries

/-- Settles O54: the three inputs in turn, and a command's effect where it is a DEF that was accepted and where it is
not. -/
theorem everyStepKeepsTheUnionOfEntries : Obligations.EveryStepKeepsTheUnionOfEntries := by
  intro fs s t hold hstep
  refine ⟨fun hin => ?_, fun rest hin => ?_, fun w rest hin => ?_⟩
  · rw [step_of_no_input hin] at hstep
    cases hstep
    exact hold
  · rw [step_of_reset hin] at hstep
    cases hstep
    exact reset_holdsEntries
  · rw [step_of_command hin] at hstep
    cases hstep
    have heffect := transact_effect w s.block
    exact ⟨fun f hdecode hok => (hdecode ▸ heffect).accepted_holdsEntries hold hok, heffect.keeps_holdsEntries hold⟩

end Sys2Proof.Proofs
end

section
/-! Frames and runs (spec/10_state.md R22 to R24, R28, R29, R35, R36). -/

namespace Sys2Proof.Proofs

open Sys2Proof.Machine

/-! ### Runs in SERVE, and of a cell that holds a word -/

theorem CommandEffect.serve_unchanged {d : Except DecodeError Instr} {b : Block} {r : Block × Response}
    (h : CommandEffect d b r) (hserve : b.phase = .serve) : r.1 = b := by
  cases h with
  | unchanged => rfl
  | committed _ building | failed _ building | inserted _ building => rw [hserve] at building; cases building

/-- Settles O37, by induction on the commands: no effect but `unchanged` starts in SERVE. -/
theorem serveIsImmutable : Obligations.ServeIsImmutable := by
  intro ws
  induction ws with
  | nil => exact fun b _ => rfl
  | cons w ws ih =>
    intro b hserve
    have hkept : (transact w b).1 = b := (transact_effect w b).serve_unchanged hserve
    rw [runCommands, hkept]
    exact ih b hserve

theorem CommandEffect.keeps_word {d : Except DecodeError Instr} {b : Block} {r : Block × Response} {a : Nat} {x : Word}
    (h : CommandEffect d b r) (hx : cellAt b.cell a = some x) : cellAt r.1.cell a = some x := by
  cases h with
  | unchanged | committed | failed => exact hx
  | @inserted f _ _ _ _ fits encoded free =>
    have hout : ¬ Covers f a := fun hc => by rw [free a hc] at hx; cases hx
    exact ((cellAt_insertEntry b a fits encoded).2 hout).trans hx

/-- Settles O44, by induction on the commands: only an accepted DEF writes cells, and it met free ones only. -/
theorem mappedCellsKeepTheirWords : Obligations.MappedCellsKeepTheirWords := by
  intro ws
  induction ws with
  | nil => exact fun b a x hx => hx
  | cons w ws ih => exact fun b a x hx => ih _ a x ((transact_effect w b).keeps_word hx)

/-! ### The frame of each command -/

/-- Only DEF and COMMIT can change the block. -/
theorem CommandEffect.block_eq {i : Instr} {b : Block} {r : Block × Response} (h : CommandEffect (.ok i) b r)
    (hdef : i.opcode ≠ .define) (hcommit : i.opcode ≠ .commit) : r.1 = b := by
  cases h with
  | unchanged => rfl
  | committed decoded => cases decoded; exact absurd rfl hcommit
  | failed decoded | inserted decoded => cases decoded; exact absurd rfl hdef

theorem CommandEffect.commit_frame {f : Fields} {b : Block} {r : Block × Response}
    (h : CommandEffect (.ok (.commit f)) b r) : r.1 = { b with phase := r.1.phase } := by
  cases h with
  | unchanged | committed => rfl
  | failed decoded | inserted decoded => cases decoded

theorem CommandEffect.define_frame {f : Fields} {b : Block} {r : Block × Response}
    (h : CommandEffect (.ok (.define f)) b r) :
    (∀ a, ¬ Covers f a → cellAt r.1.cell a = cellAt b.cell a) ∧
    (r.2.status ≠ .ok → r.1.cell = b.cell ∧ r.1.nent = b.nent) ∧
    (r.2.status = .ok → r.1 = { b with cell := r.1.cell, nent := b.nent + 1 }) := by
  cases h with
  | unchanged _ notAccepted => exact ⟨fun _ _ => rfl, fun _ => ⟨rfl, rfl⟩, fun hok => absurd hok (notAccepted f rfl)⟩
  | committed decoded => cases decoded
  | failed _ _ names =>
    refine ⟨fun _ _ => rfl, fun _ => ⟨rfl, rfl⟩, fun hok => ?_⟩
    obtain rfl : _ = Status.ok := hok
    cases names.configuration
  | inserted decoded _ _ fits encoded _ =>
    cases decoded
    exact ⟨fun a => (cellAt_insertEntry b a fits encoded).2, fun hfail => absurd rfl hfail, fun _ => rfl⟩

/-- Settles O43: every arm answers its transaction, whose effect has the command's frame. -/
theorem frameOfEveryInstruction : Obligations.FrameOfEveryInstruction := by
  intro i s t hexec
  rw [exec_eq_answer] at hexec
  cases hexec
  have heffect := transactInstr_effect i s.block
  refine ⟨rfl, _, rfl, ?_⟩
  cases i with
  | enc f | read f | write f => exact heffect.block_eq Opcode.noConfusion Opcode.noConfusion
  | commit f => exact heffect.commit_frame
  | define f => exact heffect.define_frame

/-! ### Equal cells are equal maps -/

theorem le_of_lookup {m : Memory} {lo a : Nat} {x : Word} (hm : risingFrom lo m = true) (hx : lookup m a = some x) :
    lo ≤ a ∧ a < 0x10000 := by
  induction m generalizing lo with
  | nil => cases hx
  | cons p m ih =>
    obtain ⟨k, v⟩ := p
    simp only [risingFrom, Bool.and_eq_true, decide_eq_true_eq] at hm
    obtain ⟨⟨hlo, hk⟩, htail⟩ := hm
    rw [lookup] at hx
    split at hx
    · subst a; exact ⟨hlo, hk⟩
    · have := ih htail hx; omega

/-- In canonical form every listed address is a register, so that the list itself is what is read. -/
theorem cellAt_eq_lookup {m : Memory} (hm : Memory.wf m = true) (a : Nat) : cellAt m a = lookup m a := by
  by_cases ha : a < 0x10000
  · exact if_pos ha
  · rw [cellAt_above (by omega)]
    cases hx : lookup m a with
    | none => rfl
    | some x => exact absurd (le_of_lookup hm hx).2 ha

theorem lookup_cons_self (m : Memory) (k : Nat) (v : Word) : lookup ((k, v) :: m) k = some v := if_pos rfl

theorem lookup_cons_ne {m : Memory} {k a : Nat} (v : Word) (h : k ≠ a) : lookup ((k, v) :: m) a = lookup m a :=
  if_neg h

theorem risingFrom_cons {lo k : Nat} {v : Word} {m : Memory} (h : risingFrom lo ((k, v) :: m) = true) :
    risingFrom k ((k, v) :: m) = true ∧ risingFrom (k + 1) m = true := by
  simp only [risingFrom, Bool.and_eq_true, decide_eq_true_eq] at h ⊢
  exact ⟨⟨⟨Nat.le_refl k, h.1.2⟩, h.2⟩, h.2⟩

theorem lookup_below {m : Memory} {lo a : Nat} (hm : risingFrom lo m = true) (ha : a < lo) : lookup m a = none := by
  cases hx : lookup m a with
  | none => rfl
  | some x => have := (le_of_lookup hm hx).1; omega

/-- The first addresses agree, because each is the lowest that reads as a word; then the first words do, and the rest
reads alike. -/
theorem eq_of_lookup_eq {m m' : Memory} {lo lo' : Nat} (hm : risingFrom lo m = true) (hm' : risingFrom lo' m' = true)
    (heq : ∀ a, lookup m a = lookup m' a) : m = m' := by
  induction m generalizing m' lo lo' with
  | nil =>
    cases m' with
    | nil => rfl
    | cons p m' => have h := heq p.1; rw [lookup_cons_self] at h; cases h
  | cons p m ih =>
    obtain ⟨k, v⟩ := p
    cases m' with
    | nil => have h := heq k; rw [lookup_cons_self] at h; cases h
    | cons p' m' =>
      obtain ⟨k', v'⟩ := p'
      obtain ⟨hhead, htail⟩ := risingFrom_cons hm
      obtain ⟨hhead', htail'⟩ := risingFrom_cons hm'
      have hle : k ≤ k' := (le_of_lookup hhead ((heq k').trans (lookup_cons_self m' k' v'))).1
      have hge : k' ≤ k := (le_of_lookup hhead' ((heq k).symm.trans (lookup_cons_self m k v))).1
      obtain rfl : k = k' := Nat.le_antisymm hle hge
      obtain rfl : v = v' := by
        have h := heq k
        rw [lookup_cons_self, lookup_cons_self] at h
        exact Option.some.inj h
      rw [ih htail htail' fun a => ?_]
      by_cases ha : a ≤ k
      · rw [lookup_below htail (by omega), lookup_below htail' (by omega)]
      · rw [← lookup_cons_ne v (show k ≠ a by omega), heq a, lookup_cons_ne v (by omega)]

/-- Settles O45: in canonical form the cells are what the lists hold. -/
theorem equalCellsAreEqualMaps : Obligations.EqualCellsAreEqualMaps := by
  intro m m' hm hm' hcells
  refine eq_of_lookup_eq hm hm' fun a => ?_
  rw [← cellAt_eq_lookup hm, ← cellAt_eq_lookup hm', hcells a]

/-! ### Reset and the level outputs -/

/-- Settles O34: the values by the fields of the reset block, the input by the step on it. -/
theorem resetValues : Obligations.ResetValues :=
  ⟨cellAt_nil, Block.reset_phase, rfl, Block.reset_ecode, Block.reset_eaddrLo, Block.reset_eaddrHi, Block.reset_nent,
    fun _ _ hin => step_of_reset hin⟩

/-- Settles O51: PHASE takes one of three values, each with its number; the other outputs are the registers. -/
theorem levelOutputsShowTheRegisters : Obligations.LevelOutputsShowTheRegisters := by
  have hcode : ∀ p : Phase,
      (p.code = 0 ↔ p = .build) ∧ (p.code = 1 ↔ p = .serve) ∧ (p.code = 2 ↔ p = .failed) ∧ p.code ≠ 3 := by
    intro p
    cases p <;> decide
  intro b
  obtain ⟨hbuild, hserve, hfailed, hthree⟩ := hcode b.phase
  exact ⟨hbuild, hserve, hfailed, hthree, rfl, rfl, rfl, rfl⟩

end Sys2Proof.Proofs
end

section
/-!
The carriage of words: the fields of an encoded command at their positions (spec/30_encoding.md R81), a command word
over a 16-bit channel (R82), and words as bytes, high byte first (spec/20_memory.md R53).
-/

namespace Sys2Proof.Proofs

open Sys2Proof.Machine

/-! ### The fields of an encoded command -/

/-- Every field is read back from its own position (R81): bits above an operand of `++` are bits of the left one, and
the lowest bits are the right one. -/
theorem fieldsOf_encode (i : Instr) : fieldsOf (encode i) = i.fields := by
  simp (disch := decide) only [fieldsOf, encode, BitVec.extractLsb'_append_eq_of_le, Nat.reduceSub,
    BitVec.extractLsb'_append_eq_right]

theorem opcodeOf_code (op : Opcode) : opcodeOf op.code = some op := by cases op <;> rfl

theorem opcode_withFields_fields (i : Instr) : i.opcode.withFields i.fields = i := by cases i <;> rfl

/-- Stage 1 reads back every command from its word, well-formed or not (R83). -/
theorem decode_encode (i : Instr) : decode (encode i) = .ok i := by
  simp only [decode, Laws.encoded_opcode, opcodeOf_code, fieldsOf_encode, opcode_withFields_fields]

/-- A transaction on an encoded command is the command's own. -/
theorem transact_encode (i : Instr) (b : Block) : transact (encode i) b = transactInstr i b := by
  simp only [transact, decode_encode]

/-! ### Words over a channel and as bytes -/

theorem commandOfWords_channelWords (w : CommandWord) : commandOfWords (channelWords w) = .ok w := by
  rw [channelWords, commandOfWords]
  iterate 7 rw [BitVec.extractLsb'_append_extractLsb'_eq_extractLsb' (by decide)]
  exact congrArg Except.ok BitVec.extractLsb'_eq_self

/-- The two bytes of a word, high byte first, are the word (R53). -/
theorem highByte_append_lowByte (w : Word) : w.extractLsb' 8 8 ++ w.extractLsb' 0 8 = w := by
  rw [BitVec.extractLsb'_append_extractLsb'_eq_extractLsb' (by decide)]
  exact BitVec.extractLsb'_eq_self

theorem wordsOfBytes_bytesOfWords (ws : List Word) : wordsOfBytes (bytesOfWords ws) = some ws := by
  induction ws with
  | nil => rfl
  | cons w ws ih => rw [bytesOfWords, wordsOfBytes, ih, Option.map_some, highByte_append_lowByte]

theorem decodeBytes_bytesOfWords_channelWords (w : CommandWord) :
    decodeBytes (bytesOfWords (channelWords w)) = decode w := by
  simp only [decodeBytes, wordsOfBytes_bytesOfWords, commandOfWords_channelWords]

/-- The channel words of an encoded command are cut at its fields (R81, R82): OP to RSV fill the first word, VNUM the
last four. -/
theorem channelWords_encode (i : Instr) : channelWords (encode i) =
    [ i.opcode.code ++ i.fields.cls ++ i.fields.width ++ i.fields.s ++ i.fields.rsv, i.fields.addr, i.fields.sc,
      i.fields.vden, i.fields.vnum.extractLsb' 48 16, i.fields.vnum.extractLsb' 32 16,
      i.fields.vnum.extractLsb' 16 16, i.fields.vnum.extractLsb' 0 16 ] := by
  simp (disch := decide) only [channelWords, encode, BitVec.extractLsb'_append_eq_of_le,
    BitVec.extractLsb'_append_eq_of_add_le, Nat.reduceSub, BitVec.extractLsb'_eq_self]

/-- Settles O6. -/
theorem channelCarriesTheCommandWord : Obligations.ChannelCarriesTheCommandWord :=
  ⟨fun w => ⟨commandOfWords_channelWords w, decodeBytes_bytesOfWords_channelWords w⟩, channelWords_encode⟩

/-! ### An entry of two words -/

/-- A slice of a slice is a slice at the sum of the positions. -/
theorem extractLsb'_extractLsb'_add {n : Nat} (u : BitVec n) {i j len len' : Nat} (h : j + len' ≤ len) :
    (u.extractLsb' i len).extractLsb' j len' = u.extractLsb' (i + j) len' := by
  apply BitVec.eq_of_getLsbD_eq
  intro k hk
  have hin : j + k < len := by omega
  simp only [BitVec.getLsbD_extractLsb', hk, hin, decide_true, Bool.true_and, Nat.add_assoc]

/-- The bytes of a 32-bit pattern held as two words, from the highest down (R53, R117). -/
theorem bytesOfWords_halves (u : BitVec 32) :
    bytesOfWords [u.extractLsb' 16 16, u.extractLsb' 0 16] =
      [u.extractLsb' 24 8, u.extractLsb' 16 8, u.extractLsb' 8 8, u.extractLsb' 0 8] := by
  simp (disch := decide) only [bytesOfWords, extractLsb'_extractLsb'_add, Nat.reduceAdd]

/-- Settles O14: the pattern is T as a 32-bit word, whatever the range check let through. -/
theorem twoWordEntryIsBigEndian : Obligations.TwoWordEntryIsBigEndian := by
  intro n d k s ws _ hws
  obtain ⟨-, -, rfl⟩ := encodeValue_eq_some.mp hws
  exact ⟨BitVec.ofInt 32 (truncated n d k), BitVec.toInt_ofInt _, rfl, bytesOfWords_halves _,
    wordsOfBytes_bytesOfWords _⟩

end Sys2Proof.Proofs
end

section
/-!
Reads of the register space (spec/20_memory.md R54, R57, R58): they do not wrap, and they return the words that a DEF
answered with.
-/

namespace Sys2Proof.Proofs

open Sys2Proof.Machine

/-! ### A well-formed request, and a DEF past the last address -/

/-- A well-formed READ in SERVE is the lookup of its range (R170, R172). -/
theorem readCommand_wellFormed {f : Fields} {b : Block} (hserve : b.phase = .serve)
    (hwf : (Instr.read f).wellFormed = true) :
    ∃ q : Request, q.addr = f.addr.toNat ∧ q.count = f.sc.toNat ∧ readCommand f b = serveRequest q b := by
  have hsome : (requestOperands f).isSome = true := (requestOperands_isSome f).trans hwf
  rcases readCommand_cases f b with ⟨hp, -⟩ | ⟨hp, -⟩ | ⟨-, hnone, -⟩ | ⟨q, -, hq, e⟩
  · rw [hserve] at hp; cases hp
  · rw [hserve] at hp; cases hp
  · rw [hnone] at hsome; cases hsome
  · obtain ⟨-, haddr, hcount, -⟩ := requestOperands_eq_some hq
    exact ⟨q, haddr, hcount, e⟩

/-- A range that passes the last address has a gap: 0x10000 at the latest (R58). -/
theorem serveRequest_past_top {q : Request} (b : Block) (haddr : q.addr ≤ 0xFFFF)
    (hpast : 0x10000 < q.addr + q.count) :
    ∃ x, FirstGap b.cell q.addr q.count x ∧ serveRequest q b = raise .unmappedAddress x 0 b := by
  rcases serveRequest_cases q b with hgap | ⟨ws, hlen, hcells, -⟩
  · exact hgap
  · have htop : cellAt b.cell (q.addr + (0x10000 - q.addr)) = none := cellAt_above (by omega) _
    rw [hcells _ (by omega), List.getElem?_eq_getElem (by omega)] at htop
    cases htop

/-- A well-formed DEF in BUILD is placed at its address (R140). -/
theorem defCommand_wellFormed {f : Fields} {b : Block} (hbuild : b.phase = .build)
    (hwf : (Instr.define f).wellFormed = true) :
    ∃ v : Scalar, v.width.words = f.width.toNat ∧ defCommand f b = placeEntry f.addr.toNat v b := by
  have hsome : (defOperands f).isSome = true := (defOperands_isSome f).trans hwf
  rcases defCommand_cases f b with ⟨hp, -⟩ | ⟨hp, -⟩ | ⟨-, hnone, -⟩ | ⟨v, -, hv, e⟩
  · rw [hbuild] at hp; cases hp
  · rw [hbuild] at hp; cases hp
  · rw [hnone] at hsome; cases hsome
  · obtain ⟨-, -, -, -, hwidth, -⟩ := scalarOperands_eq_some (defOperands_eq_some hv)
    exact ⟨v, hwidth, e⟩

/-- An entry that passes the last address is refused before its value is encoded (R143). -/
theorem placeEntry_past_top {addr : Nat} {v : Scalar} (b : Block) (hpast : 0x10000 < addr + v.width.words) :
    placeEntry addr v b = fatal .cfgAddr addr addr b := if_pos hpast

/-- Settles O27: the scan and the address check both compare the unbounded sum with 0x10000. -/
theorem addressesDoNotWrap : Obligations.AddressesDoNotWrap := by
  refine ⟨fun f s hserve hwf hpast => ?_, cellAt_above (Nat.le_refl _), fun f s hbuild hwf haddr hwidth => ?_⟩
  · obtain ⟨q, haddr, hcount, e⟩ := readCommand_wellFormed hserve hwf
    have hle : q.addr ≤ 0xFFFF := haddr ▸ addr_le f
    obtain ⟨x, hgap, e'⟩ := serveRequest_past_top s.block hle (by omega)
    refine ⟨x, haddr ▸ hgap.above, firstGap_le hle hgap, hgap.gap, ?_⟩
    rw [exec_read, e, e']
    rfl
  · obtain ⟨v, hwords, e⟩ := defCommand_wellFormed hbuild hwf
    have hpast : 0x10000 < f.addr.toNat + v.width.words := by rw [hwords, haddr, hwidth]; decide
    rw [exec_define, e, placeEntry_past_top s.block hpast, haddr]
    rfl

/-! ### A READ after the build -/

/-- Where the cells of a range hold these words, the lookup of it finds no gap and answers them (R172). -/
theorem serveRequest_mapped {q : Request} {b : Block} {ws : List Word} (hlen : ws.length = q.count)
    (hcells : ∀ i, i < q.count → cellAt b.cell (q.addr + i) = ws[i]?) :
    serveRequest q b = succeed q.addr (q.addr + q.count - 1) ws b := by
  rcases serveRequest_cases q b with ⟨x, hgap, -⟩ | ⟨ws', hlen', hcells', e⟩
  · obtain ⟨i, rfl⟩ := Nat.exists_eq_add_of_le hgap.above
    have hi : i < q.count := Nat.add_lt_add_iff_left.mp hgap.below
    have hsome : cellAt b.cell (q.addr + i) = some ws[i] := (hcells i hi).trans (List.getElem?_eq_getElem _)
    rw [hgap.gap] at hsome
    cases hsome
  · have hsame : ws' = ws := List.ext_getElem? fun i => by
      by_cases hi : i < q.count
      · rw [← hcells' i hi, hcells i hi]
      · rw [List.getElem?_eq_none (by omega), List.getElem?_eq_none (by omega)]
    rw [e, hsame]

theorem readCommand_mapped {f : Fields} {b : Block} {ws : List Word} (hserve : b.phase = .serve)
    (hwf : (Instr.read f).wellFormed = true) (hlen : ws.length = f.sc.toNat)
    (hcells : ∀ i, i < f.sc.toNat → cellAt b.cell (f.addr.toNat + i) = ws[i]?) :
    readCommand f b = succeed f.addr.toNat (f.addr.toNat + f.sc.toNat - 1) ws b := by
  obtain ⟨q, haddr, hcount, e⟩ := readCommand_wellFormed hserve hwf
  rw [← hcount] at hlen
  rw [← haddr, ← hcount] at hcells ⊢
  exact e.trans (serveRequest_mapped hlen hcells)

/-- The READ that the statements form is well-formed for every class and nonzero count (R85). -/
theorem plainRead_wellFormed (c : BitVec 2) (addr : BitVec 16) {n : BitVec 16} (hn : n ≠ 0) :
    (Instr.read ⟨c, 0, 0, 0, addr, n, 0, 0⟩).wellFormed = true := by
  simpa [Instr.wellFormed, Fields.requestOk] using hn

/-- COMMIT in BUILD starts serving the same cells, and the READ after it finds them (R150). -/
theorem commit_then_read {b : Block} (hbuild : b.phase = .build) (g : Fields) :
    (runCommands [commitWord, encode (.read g)] b).2 = [bare .ok, (readCommand g { b with phase := .serve }).2] := by
  have hcommit : transact commitWord b = succeed 0 0 [] { b with phase := .serve } := by
    rw [commitWord, transact_encode]
    show commitCommand Fields.zero b = _
    rcases commitCommand_cases Fields.zero b with ⟨hp, -⟩ | ⟨hp, -⟩ | ⟨-, hne, -⟩ | ⟨-, -, e⟩
    · rw [hbuild] at hp; cases hp
    · rw [hbuild] at hp; cases hp
    · exact absurd rfl hne
    · exact e
  simp only [runCommands, hcommit, succeed_block, transact_encode]
  rfl

/-- COMMIT and then a READ of a range whose cells hold these words (R150, R172). -/
theorem commit_then_read_mapped {b : Block} (hbuild : b.phase = .build) (c : BitVec 2) {addr n : BitVec 16}
    (hn : n ≠ 0) {ws : List Word} (hlen : ws.length = n.toNat)
    (hcells : ∀ i, i < n.toNat → cellAt b.cell (addr.toNat + i) = ws[i]?) :
    (runCommands [commitWord, encode (.read ⟨c, 0, 0, 0, addr, n, 0, 0⟩)] b).2 =
      [bare .ok, ⟨.ok, BitVec.ofNat 17 addr.toNat, BitVec.ofNat 17 (addr.toNat + n.toNat - 1), ws⟩] := by
  rw [commit_then_read hbuild,
    readCommand_mapped (b := { b with phase := .serve }) rfl (plainRead_wellFormed c addr hn) hlen hcells, succeed_mk]

/-- The cells of an accepted entry hold its words, each at its offset (R59, R145). -/
theorem cellAt_insertEntry_offset {f : Fields} {ws : List Word} {i : Nat} (b : Block)
    (hfits : f.addr.toNat + f.width.toNat ≤ 0x10000) (hws : defWords f = some ws) (hi : i < f.width.toNat) :
    cellAt (insertEntry f.addr.toNat ws b).cell (f.addr.toNat + i) = ws[i]? := by
  rw [(cellAt_insertEntry b _ hfits hws).1 ⟨by omega, by omega⟩, Nat.add_sub_cancel_left]

/-- Settles O30: an accepted DEF put its words in the cells of its range, and COMMIT leaves them there. -/
theorem readReturnsWhatDefAnswered : Obligations.ReadReturnsWhatDefAnswered := by
  intro b f c hok
  obtain ⟨hbuild, -, hfits, ws, hws, -, e⟩ := defCommand_accepted hok
  have hlen : ws.length = f.width.toNat := defWords_length hws
  have hpos : 1 ≤ ws.length := (defWords_length_bounds hws).1
  have hcells {i : Nat} (hi : i < f.width.toNat) := cellAt_insertEntry_offset b hfits hws hi
  have hbuilt : (insertEntry f.addr.toNat ws b).phase = .build := hbuild
  have hcount : (f.width.setWidth 16).toNat = f.width.toNat := BitVec.toNat_setWidth_of_le (by decide)
  rw [show transactInstr (.define f) b = _ from e]
  refine ⟨?_, fun i hi => ⟨ws[i], List.getElem?_eq_getElem _, ?_⟩⟩
  · have hne : f.width.setWidth 16 ≠ 0 := fun h0 => by
      have hzero : f.width.toNat = 0 := hcount.symm.trans (by rw [h0]; rfl)
      omega
    rw [← hcount] at hcells hlen ⊢
    exact commit_then_read_mapped hbuilt c hne hlen fun i => hcells
  · have haddr : (BitVec.ofNat 16 (f.addr.toNat + i)).toNat = f.addr.toNat + i := Nat.mod_eq_of_lt (by omega)
    have hone := commit_then_read_mapped (addr := BitVec.ofNat 16 (f.addr.toNat + i)) (n := 1) (ws := [ws[i]]) hbuilt c
      (by decide) rfl fun j hj => by
        obtain rfl : j = 0 := Nat.lt_one_iff.mp hj
        rw [haddr, Nat.add_zero, hcells hi, List.getElem?_eq_getElem (by omega)]
        rfl
    rwa [haddr] at hone

end Sys2Proof.Proofs
end

section
/-! The known rows of the address map (spec/20_memory.md R62) as a build program. -/

namespace Sys2Proof.Proofs

open Sys2Proof.Machine

theorem knownRow_unsigned : ∀ r ∈ Config.knownMap, r.signed = false := by decide

/-- The WIDTH field of every row's DEF is the row's width, 1 or 2, and the row ends inside the address space. -/
theorem knownRow_width : ∀ r ∈ Config.knownMap, (BitVec.ofNat 2 r.words).toNat = r.words ∧
    (r.words = 1 ∨ r.words = 2) ∧ r.addr.toNat + r.words ≤ 0x10000 := by decide

/-- No two rows share an address. -/
theorem knownMap_disjoint : Config.knownMap.Pairwise fun r q =>
    r.addr.toNat + r.words ≤ q.addr.toNat ∨ q.addr.toNat + q.words ≤ r.addr.toNat := by decide

theorem knownRowDef_wellFormed {r : Config.MapRow} (hr : r ∈ Config.knownMap) (vnum : BitVec 64) {vden : BitVec 16}
    (hden : vden ≠ 0) : (Instr.define (knownRowDef r vnum vden)).wellFormed = true := by
  obtain ⟨-, hwords, -⟩ := knownRow_width r hr
  rcases hwords with h | h <;> simpa [Instr.wellFormed, Fields.scalarOk, knownRowDef, h] using hden

/-- The range of a row's DEF is the row's, whatever its value. -/
theorem knownRowDef_width_toNat {r : Config.MapRow} (hr : r ∈ Config.knownMap) (vnum : BitVec 64) (vden : BitVec 16) :
    (knownRowDef r vnum vden).width.toNat = r.words := (knownRow_width r hr).1

theorem covers_knownRowDef {r : Config.MapRow} (hr : r ∈ Config.knownMap) {vnum : BitVec 64} {vden : BitVec 16}
    {a : Nat} :
    Covers (knownRowDef r vnum vden) a ↔ r.addr.toNat ≤ a ∧ a < r.addr.toNat + r.words := by
  rw [Covers, knownRowDef_width_toNat hr]
  rfl

/-- Only a well-formed DEF has words. -/
theorem wellFormed_of_defWords {f : Fields} (h : defWords f ≠ none) : (Instr.define f).wellFormed = true := by
  rw [← defOperands_isSome, Option.isSome_iff_ne_none]
  exact fun hnone => h (by rw [defWords, hnone])

/-- Settles O52: width, signedness and range are the row's own; only the encoder looks at the value. -/
theorem knownRowsAreAnAcceptableBuild : Obligations.KnownRowsAreAnAcceptableBuild := by
  refine ⟨knownRow_unsigned, fun num den => ⟨fun r hr => ⟨?_, knownRowDef_wellFormed hr _⟩, fun hrange => ?_⟩⟩
  · rw [knownRowDef, knownRow_unsigned r hr]
    rfl
  · refine ⟨List.forall_mem_map.mpr fun r hr => wellFormed_of_defWords (hrange r hr),
      List.forall_mem_map.mpr fun r hr => ?_, List.forall_mem_map.mpr hrange, List.pairwise_map.mpr ?_⟩
    · rw [knownRowDef_width_toNat hr]
      exact (knownRow_width r hr).2.2
    · refine knownMap_disjoint.imp_of_mem fun hr hq hapart a ⟨hin, hin'⟩ => ?_
      rw [covers_knownRowDef hr] at hin
      rw [covers_knownRowDef hq] at hin'
      omega

end Sys2Proof.Proofs
end

section
/-!
The command word as its fields side by side (spec/30_encoding.md R81): `layout`. Decoding and encoding are inverse to
each other on the words of the assigned opcodes, because the fields cover the word.
-/

namespace Sys2Proof.Proofs

open Sys2Proof.Machine

/-! ### Format C -/

/-- The word with this OP and these fields, OP assigned or not (R81). -/
def layout (op : BitVec 8) (f : Fields) : CommandWord :=
  op ++ f.cls ++ f.width ++ f.s ++ f.rsv ++ f.addr ++ f.sc ++ f.vden ++ f.vnum

theorem encode_eq_layout (i : Instr) : encode i = layout i.opcode.code i.fields := rfl

theorem opField_layout (op : BitVec 8) (f : Fields) : (layout op f).extractLsb' 120 8 = op := by
  simp (disch := decide) only [layout, BitVec.extractLsb'_append_eq_of_le, Nat.reduceSub, BitVec.extractLsb'_eq_self]

theorem fieldsOf_layout (op : BitVec 8) (f : Fields) : fieldsOf (layout op f) = f := by
  simp (disch := decide) only [layout, fieldsOf, BitVec.extractLsb'_append_eq_of_le, Nat.reduceSub,
    BitVec.extractLsb'_append_eq_right]

/-- The fields cover the word without a gap (R81). -/
theorem layout_fieldsOf (w : CommandWord) : layout (w.extractLsb' 120 8) (fieldsOf w) = w := by
  rw [layout, fieldsOf]
  iterate 8 rw [BitVec.extractLsb'_append_extractLsb'_eq_extractLsb' (by decide)]
  exact BitVec.extractLsb'_eq_self

theorem layout_inj {op op' : BitVec 8} {f f' : Fields} : layout op f = layout op' f' ↔ op = op' ∧ f = f' := by
  refine ⟨fun h => ⟨?_, ?_⟩, fun ⟨hop, hf⟩ => by rw [hop, hf]⟩
  · rw [← opField_layout op f, h, opField_layout]
  · rw [← fieldsOf_layout op f, h, fieldsOf_layout]

/-! ### The opcode map -/

theorem opcodeOf_eq_some {v : BitVec 8} {op : Opcode} : opcodeOf v = some op ↔ v = op.code := by
  refine ⟨fun h => BitVec.eq_of_toNat_eq ?_, fun h => h ▸ opcodeOf_code op⟩
  unfold opcodeOf at h
  split at h <;> cases h <;> assumption

/-- The reserved values are 0 and those from 6 up (R84, R90). -/
theorem opcodeOf_eq_none {v : BitVec 8} : opcodeOf v = none ↔ v.toNat = 0 ∨ 6 ≤ v.toNat := by
  unfold opcodeOf
  split <;> simp only [reduceCtorEq, false_iff, true_iff] <;> grind

/-! ### Decoding -/

theorem opcode_withFields (op : Opcode) (f : Fields) : (op.withFields f).opcode = op := by cases op <;> rfl

theorem fields_withFields (op : Opcode) (f : Fields) : (op.withFields f).fields = f := by cases op <;> rfl

theorem decode_of_assigned {w : CommandWord} {op : Opcode} (h : opcodeOf (w.extractLsb' 120 8) = some op) :
    decode w = .ok (op.withFields (fieldsOf w)) := by
  simp only [decode, h]

theorem decode_of_reserved {w : CommandWord} (h : opcodeOf (w.extractLsb' 120 8) = none) :
    decode w = .error (.reservedOpcode (w.extractLsb' 120 8)) := by
  simp only [decode, h]

/-- The word of the command that OP selects is the word it was read from. -/
theorem encode_withFields_fieldsOf {w : CommandWord} {op : Opcode} (h : opcodeOf (w.extractLsb' 120 8) = some op) :
    encode (op.withFields (fieldsOf w)) = w := by
  rw [encode_eq_layout, opcode_withFields, fields_withFields, ← opcodeOf_eq_some.mp h, layout_fieldsOf]

/-- Decoding and encoding are inverse to each other on the words of assigned opcodes (R83, R84). -/
theorem decode_eq_ok {w : CommandWord} {i : Instr} : decode w = .ok i ↔ encode i = w := by
  refine ⟨fun h => ?_, fun h => h ▸ decode_encode i⟩
  cases hop : opcodeOf (w.extractLsb' 120 8) with
  | none => rw [decode_of_reserved hop] at h; cases h
  | some op =>
    rw [decode_of_assigned hop] at h
    cases h
    exact encode_withFields_fieldsOf hop

/-- A word is rejected at stage 1 exactly where its OP is reserved (R83, R90). -/
theorem exists_decode_eq_ok {w : CommandWord} :
    (∃ i, decode w = .ok i) ↔ opcodeOf (w.extractLsb' 120 8) ≠ none := by
  cases hop : opcodeOf (w.extractLsb' 120 8) with
  | none => simp [decode_of_reserved hop]
  | some op => simp [decode_of_assigned hop]

/-- Settles O1. -/
theorem decodeEncodeEveryCommand : Obligations.DecodeEncodeEveryCommand :=
  fun i => ⟨decode_encode i, fun hwf => by simp only [decodeWellFormed, decode_encode, if_pos hwf]⟩

/-- Settles O2: the fields cover the word, and OP is reserved outside 1 to 5. -/
theorem encodeDecodeEveryAssignedWord : Obligations.EncodeDecodeEveryAssignedWord := by
  refine fun w => ⟨fun i => decode_eq_ok.mp, ?_⟩
  rw [exists_decode_eq_ok, Ne, opcodeOf_eq_none]
  omega

/-- Settles O5: each word is the encoding of its command, and OP 0x06 is reserved. -/
theorem writtenOutWordsDecode : Obligations.WrittenOutWordsDecode :=
  ⟨decode_eq_ok.mpr rfl, decode_eq_ok.mpr rfl, decode_eq_ok.mpr rfl, decode_eq_ok.mpr rfl, decode_eq_ok.mpr rfl,
    decode_of_reserved (opcodeOf_eq_none.mpr (by decide))⟩

end Sys2Proof.Proofs
end

section
/-!
The decoder written from the opcode table's masks (spec/30_encoding.md R97) against stage 1 and the field check: a mask
laid out in fields is all ones or all zeros in each.
-/

namespace Sys2Proof.Proofs

open Sys2Proof.Machine

/-! ### Masks laid out in fields -/

theorem layout_zero : layout 0 Fields.zero = 0 := rfl

/-- The fields that two values have in common, bit by bit. -/
def maskFields (f m : Fields) : Fields :=
  ⟨f.cls &&& m.cls, f.width &&& m.width, f.s &&& m.s, f.rsv &&& m.rsv, f.addr &&& m.addr, f.sc &&& m.sc,
    f.vden &&& m.vden, f.vnum &&& m.vnum⟩

theorem layout_and (op op' : BitVec 8) (f f' : Fields) :
    layout op f &&& layout op' f' = layout (op &&& op') (maskFields f f') := by
  simp only [layout, maskFields, ← BitVec.and_append]

theorem and_layout (w : CommandWord) (op : BitVec 8) (m : Fields) :
    w &&& layout op m = layout (w.extractLsb' 120 8 &&& op) (maskFields (fieldsOf w) m) := by
  rw [← layout_and, layout_fieldsOf]

/-- The bits below OP that R85 requires to be zero, a whole field or nothing of it. -/
def mustBeZeroFields : Opcode → Fields
  | .enc => ⟨.allOnes _, 0, 0, .allOnes _, .allOnes _, 0, 0, 0⟩
  | .define => ⟨.allOnes _, 0, 0, .allOnes _, 0, 0, 0, 0⟩
  | .commit => ⟨.allOnes _, .allOnes _, .allOnes _, .allOnes _, .allOnes _, .allOnes _, .allOnes _, .allOnes _⟩
  | .read | .write => ⟨0, .allOnes _, .allOnes _, .allOnes _, 0, 0, .allOnes _, .allOnes _⟩

/-- The masks of every row, laid out in fields. -/
theorem opcodeTable_layout : ∀ r ∈ opcodeTable, r.mask = layout (.allOnes 8) Fields.zero ∧
    r.pattern = layout r.opcode.code Fields.zero ∧ r.mustBeZero = layout 0 (mustBeZeroFields r.opcode) := by
  decide

theorem maskFields_zero (f : Fields) : maskFields f Fields.zero = Fields.zero := by
  simp only [maskFields, Fields.zero, BitVec.ofNat_eq_ofNat, BitVec.and_zero]

/-! ### The rows of the table -/

/-- A row's mask and pattern compare OP alone. -/
theorem row_selects {r : OpcodeRow} (hr : r ∈ opcodeTable) {w : CommandWord} :
    (w &&& r.mask == r.pattern) = true ↔ opcodeOf (w.extractLsb' 120 8) = some r.opcode := by
  obtain ⟨hmask, hpattern, -⟩ := opcodeTable_layout r hr
  rw [beq_iff_eq, hmask, hpattern, and_layout, maskFields_zero, BitVec.and_allOnes, layout_inj, opcodeOf_eq_some]
  exact and_iff_left rfl

/-- A row's must-be-zero mask looks at the fields that R85 does not use. -/
theorem row_mustBeZero {r : OpcodeRow} (hr : r ∈ opcodeTable) {w : CommandWord} :
    w &&& r.mustBeZero = 0 ↔ maskFields (fieldsOf w) (mustBeZeroFields r.opcode) = Fields.zero := by
  obtain ⟨-, -, hzero⟩ := opcodeTable_layout r hr
  rw [hzero, and_layout, BitVec.ofNat_eq_ofNat, BitVec.and_zero, ← layout_zero, layout_inj]
  exact and_iff_right rfl

theorem row_of_opcode (op : Opcode) : ∃ r ∈ opcodeTable, r.opcode = op := by
  cases op <;> decide

/-- Each row's stage 2 is the field check of its command, constraint by constraint (R85). -/
theorem row_accepts {r : OpcodeRow} (hr : r ∈ opcodeTable) (w : CommandWord) :
    r.accepts w = (r.opcode.withFields (fieldsOf w)).wellFormed := by
  rw [Bool.eq_iff_iff, OpcodeRow.accepts, Bool.and_eq_true, Bool.and_eq_true, beq_iff_eq, row_mustBeZero hr]
  simp only [opcodeTable, List.mem_cons, List.not_mem_nil, or_false] at hr
  rcases hr with rfl | rfl | rfl | rfl | rfl
  all_goals
    simp [maskFields, mustBeZeroFields, Fields.zero, Opcode.withFields, Instr.wellFormed, Fields.scalarOk,
      Fields.requestOk, fieldsOf, and_assoc, -BitVec.reduceAllOnes]

/-- Settles O3: the row that is found is the one OP selects, and its stage 2 is the command's. -/
theorem tableDecoderAgreesWithFieldDecoder : Obligations.TableDecoderAgreesWithFieldDecoder := by
  intro w
  unfold classifyByTable
  cases hfind : opcodeTable.find? (fun r => w &&& r.mask == r.pattern) with
  | none =>
    have hreserved : opcodeOf (w.extractLsb' 120 8) = none := by
      refine Option.eq_none_iff_forall_ne_some.mpr fun op hop => ?_
      obtain ⟨r, hr, rfl⟩ := row_of_opcode op
      exact List.find?_eq_none.mp hfind r hr ((row_selects hr).mpr hop)
    simp only [classify, decode_of_reserved hreserved]
  | some r =>
    have hr : r ∈ opcodeTable := List.mem_of_find?_eq_some hfind
    have hop := (row_selects hr).mp (List.find?_some (p := fun r : OpcodeRow => w &&& r.mask == r.pattern) hfind)
    simp only [classify, decode_of_assigned hop, opcode_withFields, row_accepts hr]

end Sys2Proof.Proofs
end

section
/-!
The first four checks of a command, in the order of spec/60_exceptions.md R205: the phase FAILED, a reserved opcode
(spec/30_encoding.md R90), the phase table of R212, well-formedness. The first that fails decides the status.
-/

namespace Sys2Proof.Proofs

open Sys2Proof.Machine

/-- The statuses of the four checks that come before a command's own (R205). -/
def isEarly : Status → Bool
  | .failedRefused | .badCommand | .phaseError | .cfgSpec => true
  | _ => false

/-- `e` is the status that the checks of R205 allow the command `i` in phase `p`: that of the first check that fails, or,
where none does, one of the command's own. -/
inductive StatusByChecks (i : Instr) (p : Phase) : Status → Prop
  | inFailed (hp : p = .failed) : StatusByChecks i p .failedRefused
  | wrongPhase (hrefused : phaseRefuses i.opcode p = true) : StatusByChecks i p .phaseError
  | malformed {e : Status} (hp : p ≠ .failed) (hallowed : phaseRefuses i.opcode p = false)
      (hwf : i.wellFormed = false) (he : e = if i.opcode = .define then .cfgSpec else .badCommand) :
      StatusByChecks i p e
  | own {e : Status} (hp : p ≠ .failed) (hallowed : phaseRefuses i.opcode p = false) (hwf : i.wellFormed = true)
      (he : isEarly e = false) : StatusByChecks i p e

/-! ### The status of each command -/

theorem encCommand_checked (f : Fields) (b : Block) :
    StatusByChecks (.enc f) b.phase (encCommand f b).2.status := by
  have hallowed : phaseRefuses .enc b.phase = false := by cases b.phase <;> rfl
  have hwf := encOperands_isSome f
  rcases encCommand_cases f b with ⟨hp, e⟩ | ⟨hp, ho, e⟩ | ⟨v, hp, ho, -, e⟩ | ⟨v, ws, hp, ho, -, e⟩ <;> rw [e]
  · exact .inFailed hp
  · exact .malformed hp hallowed (by rw [← hwf, ho]; rfl) rfl
  · exact .own hp hallowed (by rw [← hwf, ho]; rfl) rfl
  · exact .own hp hallowed (by rw [← hwf, ho]; rfl) rfl

theorem placeEntry_own (addr : Nat) (v : Scalar) (b : Block) : isEarly (placeEntry addr v b).2.status = false := by
  rcases placeEntry_cases addr v b with ⟨-, e⟩ | ⟨-, -, e⟩ | ⟨ws, lo, hi, -, -, -, e⟩ | ⟨ws, -, -, -, e⟩
  all_goals rw [e]; rfl

theorem defCommand_checked (f : Fields) (b : Block) :
    StatusByChecks (.define f) b.phase (defCommand f b).2.status := by
  have hwf := defOperands_isSome f
  rcases defCommand_cases f b with ⟨hp, e⟩ | ⟨hp, e⟩ | ⟨hp, ho, e⟩ | ⟨v, hp, ho, e⟩ <;> rw [e, hp]
  · exact .inFailed rfl
  · exact .wrongPhase rfl
  · exact .malformed (by decide) rfl (by rw [← hwf, ho]; rfl) rfl
  · exact .own (by decide) rfl (by rw [← hwf, ho]; rfl) (placeEntry_own _ v b)

theorem commitCommand_checked (f : Fields) (b : Block) :
    StatusByChecks (.commit f) b.phase (commitCommand f b).2.status := by
  rcases commitCommand_cases f b with ⟨hp, e⟩ | ⟨hp, e⟩ | ⟨hp, hf, e⟩ | ⟨hp, hf, e⟩ <;> rw [e, hp]
  · exact .inFailed rfl
  · exact .wrongPhase rfl
  · exact .malformed (by decide) rfl (beq_eq_false_iff_ne.mpr hf) rfl
  · exact .own (by decide) rfl (beq_iff_eq.mpr hf) rfl

theorem serveRequest_own (q : Request) (b : Block) : isEarly (serveRequest q b).2.status = false := by
  rcases serveRequest_cases q b with ⟨x, -, e⟩ | ⟨ws, -, -, e⟩ <;> rw [e] <;> rfl

theorem readCommand_checked (f : Fields) (b : Block) :
    StatusByChecks (.read f) b.phase (readCommand f b).2.status := by
  have hwf : _ = (Instr.read f).wellFormed := requestOperands_isSome f
  rcases readCommand_cases f b with ⟨hp, e⟩ | ⟨hp, e⟩ | ⟨hp, ho, e⟩ | ⟨q, hp, ho, e⟩ <;> rw [e, hp]
  · exact .inFailed rfl
  · exact .wrongPhase rfl
  · exact .malformed (by decide) rfl (by rw [← hwf, ho]; rfl) rfl
  · exact .own (by decide) rfl (by rw [← hwf, ho]; rfl) (serveRequest_own q b)

theorem writeCommand_checked (f : Fields) (b : Block) :
    StatusByChecks (.write f) b.phase (writeCommand f b).2.status := by
  have hwf : _ = (Instr.write f).wellFormed := requestOperands_isSome f
  rcases writeCommand_cases f b with ⟨hp, e⟩ | ⟨hp, e⟩ | ⟨hp, ho, e⟩ | ⟨q, hp, ho, e⟩ <;> rw [e, hp]
  · exact .inFailed rfl
  · exact .wrongPhase rfl
  · exact .malformed (by decide) rfl (by rw [← hwf, ho]; rfl) rfl
  · exact .own (by decide) rfl (by rw [← hwf, ho]; rfl) rfl

theorem transactInstr_checked (i : Instr) (b : Block) :
    StatusByChecks i b.phase (transactInstr i b).2.status := by
  cases i with
  | enc f => exact encCommand_checked f b
  | define f => exact defCommand_checked f b
  | commit f => exact commitCommand_checked f b
  | read f => exact readCommand_checked f b
  | write f => exact writeCommand_checked f b

/-! ### Reserved opcodes (R90) -/

/-- A reserved opcode is refused by name (R90). -/
theorem transact_reserved {w : CommandWord} (b : Block)
    (h : (w.extractLsb' 120 8).toNat = 0 ∨ 6 ≤ (w.extractLsb' 120 8).toNat) : transact w b = reservedCommand b := by
  rw [transact, decode_of_reserved (opcodeOf_eq_none.mpr h)]

/-- Settles O35. -/
theorem reservedOpcodesAreRefused : Obligations.ReservedOpcodesAreRefused := by
  intro s w rest hinputs hop
  rw [step_of_command hinputs, transact_reserved s.block hop]
  rcases reservedCommand_cases s.block with ⟨hp, e⟩ | ⟨hp, e⟩ <;> rw [e]
  · exact ⟨fun _ => rfl, fun hne => absurd hp hne⟩
  · exact ⟨fun hfailed => absurd hfailed hp, fun _ => rfl⟩

/-! ### The order of the checks -/

theorem earlyStatus_failed (w : CommandWord) : earlyStatus w .failed = some .failedRefused := if_pos rfl

theorem earlyStatus_error {w : CommandWord} {p : Phase} {d : DecodeError} (hp : p ≠ .failed)
    (hw : decode w = .error d) : earlyStatus w p = some .badCommand := by
  simp only [earlyStatus, if_neg hp, hw]

theorem phaseRefuses_failed (op : Opcode) : phaseRefuses op .failed = false := by cases op <;> rfl

/-- A status that the checks allow is the one `earlyStatus` names, or one of the command's own. -/
theorem StatusByChecks.earlyStatus_eq {w : CommandWord} {i : Instr} {p : Phase} {e : Status}
    (h : StatusByChecks i p e) (hw : decode w = .ok i) :
    earlyStatus w p = some e ∨ earlyStatus w p = none ∧ isEarly e = false := by
  cases h with
  | inFailed hp => rw [hp]; exact .inl (earlyStatus_failed w)
  | wrongPhase hrefused =>
    have hp : p ≠ .failed := fun hp => by rw [hp, phaseRefuses_failed] at hrefused; cases hrefused
    exact .inl (by simp only [earlyStatus, if_neg hp, hw, if_pos hrefused])
  | malformed hp hallowed hwf he =>
    exact .inl (by simp [earlyStatus, hp, hw, hallowed, hwf, he, apply_ite some])
  | own hp hallowed hwf he => exact .inr ⟨by simp [earlyStatus, hp, hw, hallowed, hwf], he⟩

/-- Every command word is answered as the checks say. -/
theorem transact_earlyStatus (w : CommandWord) (b : Block) :
    earlyStatus w b.phase = some (transact w b).2.status ∨
      earlyStatus w b.phase = none ∧ isEarly (transact w b).2.status = false := by
  unfold transact
  cases hw : decode w with
  | ok i => exact (transactInstr_checked i b).earlyStatus_eq hw
  | error d =>
    left
    rcases reservedCommand_cases b with ⟨hp, e⟩ | ⟨hp, e⟩ <;> dsimp only <;> rw [e]
    · rw [hp]; exact earlyStatus_failed w
    · exact earlyStatus_error hp hw

theorem ne_of_not_isEarly {e : Status} (h : isEarly e = false) :
    e ≠ .failedRefused ∧ e ≠ .badCommand ∧ e ≠ .phaseError ∧ e ≠ .cfgSpec := by
  revert h
  cases e <;> decide

/-- Settles O39. -/
theorem firstFailingCheckDecides : Obligations.FirstFailingCheckDecides := by
  intro w b
  rcases transact_earlyStatus w b with h | ⟨h, hown⟩ <;> rw [h]
  exact ne_of_not_isEarly hown

end Sys2Proof.Proofs
end

section
/-!
The assembler (spec/30_encoding.md R93 to R95): what the pseudo-instructions stand for, and the worked lines of text.
-/

namespace Sys2Proof.Proofs

open Sys2Proof.Machine

/-! ### Operands that fit their fields, and those that do not -/

theorem field16_of_lt {n : Nat} (h : n < 0x10000) : field16 n = some (BitVec.ofNat 16 n) := if_pos h

theorem field16_of_le {n : Nat} (h : 0x10000 ≤ n) : field16 n = none := if_neg (Nat.not_lt_of_le h)

theorem vnumField_of_fits {n : Int} (h : -(2 ^ 63) ≤ n ∧ n < 2 ^ 63) : vnumField n = some (BitVec.ofInt 64 n) :=
  if_pos h

theorem command_rawDef {a : Nat} {n : Int} (ha : a < 0x10000) (hn : -(2 ^ 63) ≤ n ∧ n < 2 ^ 63) :
    AsmLine.command (rawDef a n) =
      some (.define ⟨0, 1, 0, 0, BitVec.ofNat 16 a, 1, 1, BitVec.ofInt 64 n⟩) := by
  simp only [rawDef, AsmLine.command, scalarFields, ValueLiteral.fields, field16_of_lt ha, vnumField_of_fits hn]
  rfl

theorem command_rawDef_past_top {a : Nat} (n : Int) (ha : 0x10000 ≤ a) : AsmLine.command (rawDef a n) = none := by
  simp only [rawDef, AsmLine.command, scalarFields, field16_of_le ha, Option.map_none]

/-! ### Several lines -/

theorem commandsOf_cons (l : AsmLine) (ls : List AsmLine) :
    commandsOf (l :: ls) = (AsmLine.command l).bind fun i => (commandsOf ls).map fun is => i :: is := by
  rw [commandsOf]
  cases AsmLine.command l <;> cases commandsOf ls <;> rfl

/-- The assembler takes every line or refuses all of them. -/
theorem commandsOf_eq_some {ls : List AsmLine} {is : List Instr} :
    commandsOf ls = some is ↔ ls.map AsmLine.command = is.map some := by
  induction ls generalizing is with
  | nil => cases is <;> simp [commandsOf]
  | cons l ls ih => cases is <;> simp [commandsOf_cons, Option.bind_eq_some_iff, ih]

/-- The command of every line of an assembled text. -/
theorem command_of_commandsOf {ls : List AsmLine} {is : List Instr} (h : commandsOf ls = some is) {j : Nat}
    {l : AsmLine} {i : Instr} (hl : ls[j]? = some l) (hi : is[j]? = some i) : AsmLine.command l = some i := by
  have hj := congrArg (·[j]?) (commandsOf_eq_some.mp h)
  simpa [hl, hi] using hj

/-- One line that the assembler refuses refuses them all. -/
theorem commandsOf_eq_none {ls : List AsmLine} {l : AsmLine} (hl : l ∈ ls) (hnone : AsmLine.command l = none) :
    commandsOf ls = none := by
  refine Option.eq_none_iff_forall_ne_some.mpr fun is h => ?_
  have hmem : AsmLine.command l ∈ is.map some := commandsOf_eq_some.mp h ▸ List.mem_map_of_mem hl
  obtain ⟨i, -, hi⟩ := List.mem_map.mp hmem
  rw [hnone] at hi
  cases hi

theorem assemble_define {addr scale : Nat} {w : Width} {signed : Bool} {v : ValueLiteral} {i : Instr}
    (h : AsmLine.command (.define addr w signed scale v) = some i) :
    assemble (.define addr w signed scale v) = some [i] :=
  commandsOf_eq_some.mpr (congrArg (fun c => [c]) h)

/-! ### Sequences (R94) -/

theorem seqDefs_eq_mapIdx (a : Nat) (ns : List Int) : seqDefs a ns = ns.mapIdx fun j n => rawDef (a + j) n := by
  induction ns generalizing a with
  | nil => rfl
  | cons n ns ih => simp only [seqDefs, ih, List.mapIdx_cons, Nat.add_zero, Nat.add_comm, Nat.add_left_comm]

theorem length_seqDefs (a : Nat) (ns : List Int) : (seqDefs a ns).length = ns.length := by
  rw [seqDefs_eq_mapIdx, List.length_mapIdx]

theorem getElem?_seqDefs {a j : Nat} {ns : List Int} {n : Int} (h : ns[j]? = some n) :
    (seqDefs a ns)[j]? = some (rawDef (a + j) n) := by
  rw [seqDefs_eq_mapIdx, List.getElem?_mapIdx, h, Option.map_some]

/-- A sequence that ends inside the address space, of numbers that fit VNUM, is assembled. -/
theorem exists_commandsOf_seqDefs {a : Nat} {ns : List Int} (ha : a + ns.length ≤ 0x10000)
    (hns : ∀ n ∈ ns, -(2 ^ 63) ≤ n ∧ n < (2 ^ 63 : Int)) : ∃ is, commandsOf (seqDefs a ns) = some is := by
  induction ns generalizing a with
  | nil => exact ⟨[], rfl⟩
  | cons n ns ih =>
    rw [List.length_cons] at ha
    obtain ⟨hn, hrest⟩ := List.forall_mem_cons.mp hns
    obtain ⟨is, his⟩ := ih (a := a + 1) (by omega) hrest
    rw [seqDefs, commandsOf_cons, command_rawDef (by omega) hn, his]
    exact ⟨_, rfl⟩

theorem commandsOf_seqDefs_past_top {a : Nat} {ns : List Int} (hne : ns ≠ []) (ha : 0x10000 < a + ns.length) :
    commandsOf (seqDefs a ns) = none := by
  have hlast : ns[ns.length - 1]? = some (ns.getLast hne) :=
    List.getLast?_eq_getElem?.symm.trans (List.getLast?_eq_some_getLast hne)
  exact commandsOf_eq_none (List.mem_of_getElem? (getElem?_seqDefs hlast)) (command_rawDef_past_top _ (by omega))

/-- Settles O7: three expansions are the definition's own; a sequence is assembled number by number, and its last number
is the one past 0xFFFF. -/
theorem pseudoInstructionsExpandToDefs : Obligations.PseudoInstructionsExpandToDefs := by
  refine ⟨fun _ _ _ => rfl, fun _ _ => rfl, fun _ => rfl, fun _ => rfl, fun a ns ha hns => ?_,
    fun a ns hne ha => commandsOf_seqDefs_past_top hne ha⟩
  obtain ⟨is, his⟩ := exists_commandsOf_seqDefs ha hns
  have hlen := congrArg List.length (commandsOf_eq_some.mp his)
  rw [List.length_map, List.length_map, length_seqDefs] at hlen
  exact ⟨is, his, hlen.symm, fun j n i hn hi => assemble_define (command_of_commandsOf his (getElem?_seqDefs hn) hi)⟩

/-! ### Worked encodings (R95) -/

/-- From the text to its line, to the line's command, to the command's word. -/
theorem assembleText_eq {text : String} {l : AsmLine} {i : Instr} {w : CommandWord}
    (hparse : parseLine text.toList = some l) (hassemble : assemble l = some [i]) (hword : encode i = w) :
    assembleText text = some [w] := by
  simp only [assembleText, hparse, hassemble, Option.map_some, List.map_cons, List.map_nil, hword]

/-- Settles O4. -/
theorem workedEncodingsOfTheSpec : Obligations.WorkedEncodingsOfTheSpec :=
  ⟨assembleText_eq (l := .define 0x3000 .one false 100 (.decimal 60 0))
      (i := .define ⟨0, 1, 0, 0, 0x3000, 100, 1, 60⟩) (by decide +kernel) rfl rfl,
    rfl,
    assembleText_eq (l := .define 0x3002 .two false 100 (.decimal 1800 0))
      (i := .define ⟨0, 2, 0, 0, 0x3002, 100, 1, 1800⟩) (by decide +kernel) rfl rfl,
    assembleText_eq (l := .enc .one true 100 (.decimal (-12345) 3))
      (i := .enc ⟨0, 1, 1, 0, 0, 100, 1000, 0xFFFFFFFFFFFFCFC7⟩) (by decide +kernel) rfl rfl,
    rfl, rfl,
    assembleText_eq (l := .commit) (i := .commit Fields.zero) (by decide +kernel) rfl rfl,
    assembleText_eq (l := .read .inputRegisters 0x3000 1) (i := .read ⟨3, 0, 0, 0, 0x3000, 1, 0, 0⟩)
      (by decide +kernel) rfl rfl,
    assembleText_eq (l := .write .holdingRegisters 0x9000 1) (i := .write ⟨2, 0, 0, 0, 0x9000, 1, 0, 0⟩)
      (by decide +kernel) rfl rfl⟩

end Sys2Proof.Proofs
end

section
/-!
The truncated product (spec/40_encoder.md R112, R120): `tdiv` is the integer quotient rounded toward zero, and T is the
one integer that `IsTruncated` describes.
-/

namespace Sys2Proof.Proofs

open Sys2Proof.Machine

/-! ### The quotient -/

/-- R10's quotient is the library's, so its laws are the library's. -/
theorem tdiv_eq_intTdiv (n : Int) (d : Nat) : tdiv n d = n.tdiv d := by
  unfold tdiv
  split <;> rename_i h
  · exact (Int.tdiv_eq_ediv_of_nonneg h).symm
  · rw [← Int.tdiv_eq_ediv_of_nonneg (by omega), Int.neg_tdiv, neg_neg]

theorem truncated_eq_tdiv (n : Int) (d k : Nat) : truncated n d k = (n * (k : Int)).tdiv d := tdiv_eq_intTdiv _ _

theorem truncated_neg (n : Int) (d k : Nat) : truncated (-n) d k = -truncated n d k := by
  simp only [truncated_eq_tdiv, neg_mul, Int.neg_tdiv]

theorem natAbs_truncated (n : Int) (d k : Nat) : (truncated n d k).natAbs = (n * (k : Int)).natAbs / d := by
  rw [truncated_eq_tdiv, Int.natAbs_tdiv]
  rfl

/-- T has the sign of the product, unless the product is below one (R120 (b)). -/
theorem sign_truncated (n : Int) {d : Nat} (k : Nat) (hd : 0 < d) :
    (truncated n d k).sign = if (n * (k : Int)).natAbs < d then 0 else (n * (k : Int)).sign := by
  rw [truncated_eq_tdiv, Int.sign_tdiv, Int.natAbs_natCast, Int.sign_natCast_of_ne_zero hd.ne', mul_one]

theorem truncated_eq_zero {n : Int} {d k : Nat} (h : (n * (k : Int)).natAbs < d) : truncated n d k = 0 :=
  Int.natAbs_eq_zero.mp ((natAbs_truncated n d k).trans (Nat.div_eq_of_lt h))

/-- A product of at least one leaves SCALE positive, so T has the sign of VALUE (R120 (b)). -/
theorem sign_truncated_of_le {n : Int} {d k : Nat} (hd : 0 < d) (h : d ≤ (n * (k : Int)).natAbs) :
    (truncated n d k).sign = n.sign := by
  have hk : k ≠ 0 := by
    rintro rfl
    rw [Nat.cast_zero, mul_zero] at h
    exact hd.not_ge h
  rw [sign_truncated n k hd, if_neg (Nat.not_lt.mpr h), Int.sign_mul, Int.sign_natCast_of_ne_zero hk, mul_one]

/-- Over the common denominator `d × d'` the order of the fractions is the order of the numerators (R120 (f)). -/
theorem truncated_mono {n n' : Int} {d d' : Nat} (k : Nat) (hd : 0 < d) (hd' : 0 < d')
    (h : n * (d' : Int) ≤ n' * (d : Int)) : truncated n d k ≤ truncated n' d' k := by
  have hpos : (0 : Int) < d := Int.natCast_pos.mpr hd
  have hpos' : (0 : Int) < d' := Int.natCast_pos.mpr hd'
  have hnum : n * (k : Int) * d' ≤ n' * (k : Int) * d := by
    rw [mul_right_comm, mul_right_comm n']
    exact Int.mul_le_mul_of_nonneg_right h (Int.natCast_nonneg k)
  calc truncated n d k
      = (n * (k : Int) * d').tdiv (d * d') := by rw [truncated_eq_tdiv, Int.mul_tdiv_mul_of_pos_left _ _ hpos']
    _ ≤ (n' * (k : Int) * d).tdiv (d * d') := Int.tdiv_le_tdiv (Int.mul_pos hpos hpos') hnum
    _ = truncated n' d' k := by rw [truncated_eq_tdiv, mul_comm (d : Int), Int.mul_tdiv_mul_of_pos_left _ _ hpos]

/-! ### The one integer of R112 -/

theorem isTruncated_truncated (n : Int) {d : Nat} (k : Nat) (hd : 0 < d) : IsTruncated n d k (truncated n d k) where
  notAbove := by
    rw [natAbs_truncated]
    exact Nat.div_mul_le_self _ _
  close := by
    rw [natAbs_truncated, mul_comm _ d]
    exact Nat.lt_mul_div_succ _ hd
  sign := by
    rw [← Int.sign_nonneg_iff, Int.sign_mul, sign_truncated n k hd]
    split
    · rw [zero_mul]
    · exact mul_self_nonneg _

/-- The two bounds fix `|T|`, and the sign of the product fixes T. -/
theorem eq_truncated {n : Int} {d k : Nat} {t : Int} (hd : 0 < d) (h : IsTruncated n d k t) : t = truncated n d k := by
  have habs : t.natAbs = (truncated n d k).natAbs :=
    (Nat.div_eq_of_lt_le h.notAbove h.close).symm.trans (natAbs_truncated n d k).symm
  rcases Int.natAbs_eq_natAbs_iff.mp habs with heq | hneg
  · exact heq
  · have hle : truncated n d k * (n * (k : Int)) ≤ 0 := by
      have hsign := h.sign
      rw [hneg] at hsign
      linarith
    have hge := (isTruncated_truncated n k hd).sign
    rcases Int.mul_eq_zero.mp (le_antisymm hle hge) with h0 | h0
    · rw [hneg, h0, neg_zero]
    · rw [hneg, truncated_eq_zero (by rw [h0]; exact hd), neg_zero]

/-- Settles O8: the quotient is the definition's own. -/
theorem truncationIsTowardZero : Obligations.TruncationIsTowardZero :=
  fun n _ k hd => ⟨rfl, isTruncated_truncated n k hd, fun _ => eq_truncated hd⟩

/-- Settles O12: equal fractions are each at most the other. -/
theorem encoderArithmeticLaws : Obligations.EncoderArithmeticLaws :=
  fun n _ d _ k hd hd' => ⟨truncated_eq_zero, sign_truncated_of_le hd, truncated_neg n d k, truncated_mono k hd hd',
    fun h => le_antisymm (truncated_mono k hd hd' h.le) (truncated_mono k hd' hd h.ge)⟩

end Sys2Proof.Proofs
end

section
/-!
The range check and the words of the encoder (spec/40_encoder.md R114 to R121): a value in range is read back from the
words of its residue.
-/

namespace Sys2Proof.Proofs

open Sys2Proof.Machine

/-! ### The ranges (R114) -/

/-- T is in the range that R114 gives this width and signedness. -/
abbrev InRange (w : Width) (s : Bool) (t : Int) : Prop := rangeLo w s ≤ t ∧ t ≤ rangeHi w s

/-- The words of T, by its value alone. -/
theorem encodeValue_of_truncated_eq {n : Int} {d k : Nat} {w : Width} {s : Bool} {t : Int}
    (ht : truncated n d k = t) (h : InRange w s t) : encodeValue n d k w s = some (emit w t) := by
  subst ht
  exact encodeValue_eq_some.mpr ⟨h.1, h.2, rfl⟩

theorem inRange_zero (w : Width) (s : Bool) : InRange w s 0 := by
  cases w <;> cases s <;> decide

theorem inRange_neg_one (w : Width) : InRange w true (-1) := by
  cases w <;> decide

/-- Settles O9: the numbers are the values of the model's bounds, and the check compares T with them. -/
theorem encoderRangeCheck : Obligations.EncoderRangeCheck :=
  ⟨fun _ _ _ _ => ⟨encodeValue_eq_none, encodeValue_eq_none, encodeValue_eq_none, encodeValue_eq_none⟩,
    by decide, by decide⟩

/-! ### The residue (R115) -/

theorem emod_of_inRange_of_nonneg {w : Width} {s : Bool} {t : Int} (h : InRange w s t) (ht : 0 ≤ t) :
    t % 2 ^ (16 * w.words) = t := by
  have hlt : rangeHi w s < 2 ^ (16 * w.words) := by cases w <;> cases s <;> decide
  exact Int.emod_eq_of_lt ht (h.2.trans_lt hlt)

/-- Only a signed range goes below 0, and not below `-2^(16w)`. -/
theorem emod_of_inRange_of_neg {w : Width} {s : Bool} {t : Int} (h : InRange w s t) (ht : t < 0) :
    s = true ∧ t % 2 ^ (16 * w.words) = t + 2 ^ (16 * w.words) := by
  have hlo : -2 ^ (16 * w.words) ≤ rangeLo w s := by cases w <;> cases s <;> decide
  refine ⟨?_, ?_⟩
  · cases s
    · exact absurd h.1 (not_le.mpr ht)
    · rfl
  · rw [← Int.add_emod_right, Int.emod_eq_of_lt] <;> linarith [h.1]

/-- A signed value in range is its own balanced residue. -/
theorem bmod_of_inRange {w : Width} {t : Int} (h : InRange w true t) : t.bmod (2 ^ (16 * w.words)) = t := by
  have hlo : -2 ^ (16 * w.words) ≤ rangeLo w true * 2 := by cases w <;> decide
  have hhi : rangeHi w true * 2 < 2 ^ (16 * w.words) := by cases w <;> decide
  obtain ⟨hge, hle⟩ := h
  apply Int.bmod_eq_of_le_mul_two <;> push_cast <;> linarith

/-! ### The words (R116 to R118) and what they decode to (R119) -/

theorem emit_zero (w : Width) : emit w 0 = List.replicate w.words 0 := by cases w <;> decide

theorem emit_neg_one (w : Width) : emit w (-1) = List.replicate w.words 0xFFFF := by cases w <;> decide

/-- One word is the whole pattern. -/
theorem decode_emit_one (t : Int) (s : Bool) : decodeBigEndian (emit .one t) s =
    some (if s then (BitVec.ofInt 16 t).toInt else ((BitVec.ofInt 16 t).toNat : Int)) := rfl

/-- The high and the low half side by side are the whole pattern. -/
theorem decode_emit_two (t : Int) (s : Bool) : decodeBigEndian (emit .two t) s =
    some (if s then (BitVec.ofInt 32 t).toInt else ((BitVec.ofInt 32 t).toNat : Int)) := by
  rw [emit, decodeBigEndian, BitVec.extractLsb'_append_extractLsb' (w := 16) (len := 16) (x := BitVec.ofInt 32 t)]

theorem natCast_toNat_ofInt (m : Nat) (t : Int) : ((BitVec.ofInt m t).toNat : Int) = t % 2 ^ m := by
  rw [BitVec.toNat_ofInt, Int.toNat_of_nonneg (Int.emod_nonneg _ (by positivity)), Nat.cast_pow, Nat.cast_ofNat]

/-- Whatever T is, the words decode to its residue: the non-negative one unsigned, the balanced one signed. -/
theorem decode_emit (w : Width) (t : Int) (s : Bool) : decodeBigEndian (emit w t) s =
    some (if s then t.bmod (2 ^ (16 * w.words)) else t % 2 ^ (16 * w.words)) := by
  cases w
  · rw [decode_emit_one, BitVec.toInt_ofInt, natCast_toNat_ofInt]
    rfl
  · rw [decode_emit_two, BitVec.toInt_ofInt, natCast_toNat_ofInt]
    rfl

/-- A value in range is read back from its words. -/
theorem decode_emit_of_inRange {w : Width} {s : Bool} {t : Int} (h : InRange w s t) :
    decodeBigEndian (emit w t) s = some t := by
  rw [decode_emit]
  cases s
  · exact congrArg some (emod_of_inRange_of_nonneg h h.1)
  · exact congrArg some (bmod_of_inRange h)

/-- Two words side by side are a number in base 65536, the high word first (R53). -/
theorem toNat_append_words (hi lo : Word) : (hi ++ lo).toNat = hi.toNat * 65536 + lo.toNat := by
  rw [BitVec.toNat_append, ← Nat.shiftLeft_add_eq_or_of_lt lo.isLt, Nat.shiftLeft_eq]

theorem toNat_highHalf (u : BitVec 32) : (u.extractLsb' 16 16).toNat = u.toNat / 65536 := by
  rw [BitVec.extractLsb'_toNat, Nat.shiftRight_eq_div_pow]
  exact Nat.mod_eq_of_lt (by omega)

theorem toNat_lowHalf (u : BitVec 32) : (u.extractLsb' 0 16).toNat = u.toNat % 65536 :=
  BitVec.extractLsb'_toNat 0 16 u

/-- Two's complement, with the sign read off the number itself (R119). -/
theorem toInt_eq_ite {m : Nat} (x : BitVec (m + 1)) :
    x.toInt = if x.toNat < 2 ^ m then (x.toNat : Int) else (x.toNat : Int) - 2 ^ (m + 1) := by
  have hhalf : 2 * x.toNat < 2 ^ (m + 1) ↔ x.toNat < 2 ^ m := by rw [pow_succ]; omega
  simp only [BitVec.toInt_eq_toNat_cond, hhalf, Nat.cast_pow, Nat.cast_ofNat]

/-- Settles O10: the pattern is T as a word of 16w bits, whose number is the residue. -/
theorem encoderWordsAreTheBitPattern : Obligations.EncoderWordsAreTheBitPattern := by
  intro n d k w s ws _ hws
  obtain ⟨hlo, hhi, rfl⟩ := encodeValue_eq_some.mp hws
  generalize truncated n d k = t at *
  have hin : InRange w s t := ⟨hlo, hhi⟩
  have hcast := natCast_toNat_ofInt (16 * w.words) t
  refine ⟨(BitVec.ofInt (16 * w.words) t).toNat, hcast, fun ht => ?_, fun ht => ?_, ?_, ?_⟩
  · rw [hcast, emod_of_inRange_of_nonneg hin ht]
  · rw [hcast]
    exact emod_of_inRange_of_neg hin ht
  · rintro rfl
    exact ⟨_, rfl, rfl⟩
  · rintro rfl
    refine ⟨_, _, rfl, ?_, ?_⟩
    · exact toNat_highHalf (BitVec.ofInt 32 t)
    · exact toNat_lowHalf (BitVec.ofInt 32 t)

/-- Settles O11: `decode` is two's complement on the words side by side, and a value in range survives it. -/
theorem encodeDecodeRoundTrip : Obligations.EncodeDecodeRoundTrip := by
  refine ⟨fun a => ⟨rfl, ?_⟩, fun a b => ⟨?_, ?_⟩, fun n d k w s ws _ hws => ?_⟩
  · exact congrArg some (toInt_eq_ite (m := 15) a)
  · exact congrArg (fun u : Nat => some (u : Int)) (toNat_append_words a b)
  · have hsigned : (a ++ b).toInt = _ := toInt_eq_ite (m := 31) (a ++ b)
    rw [toNat_append_words] at hsigned
    exact congrArg some hsigned
  · obtain ⟨hlo, hhi, rfl⟩ := encodeValue_eq_some.mp hws
    exact decode_emit_of_inRange ⟨hlo, hhi⟩

/-- A product below one gives zero words (R121). -/
theorem encodeValue_of_natAbs_lt {n : Int} {d k : Nat} (w : Width) (s : Bool) (h : (n * (k : Int)).natAbs < d) :
    encodeValue n d k w s = some (List.replicate w.words 0) := by
  rw [encodeValue_of_truncated_eq (truncated_eq_zero h) (inRange_zero w s), emit_zero]

/-- Settles O13: each clause gives T, and T decides. -/
theorem encoderCornerCases : Obligations.EncoderCornerCases := by
  intro n d k w s hd
  refine ⟨encodeValue_of_natAbs_lt w s (by simpa using hd), encodeValue_of_natAbs_lt w s (by simpa using hd),
    encodeValue_of_natAbs_lt w s, fun hn hle => ?_, fun ht => ?_, fun ht => ?_,
    fun ht => ?_⟩
  · have hneg : truncated n d k < 0 := by
      rw [← Int.sign_eq_neg_one_iff_neg, sign_truncated_of_le hd hle, Int.sign_eq_neg_one_of_neg hn]
    exact encodeValue_eq_none.mpr (.inl hneg)
  · exact encodeValue_of_truncated_eq ht (by decide)
  · exact encodeValue_of_truncated_eq ht (by decide)
  · rw [encodeValue_of_truncated_eq ht (inRange_neg_one w), emit_neg_one]

end Sys2Proof.Proofs
end

section
/-! ENC (spec/40_encoder.md R110): the encoder on the operands of a well-formed command. -/

namespace Sys2Proof.Proofs

open Sys2Proof.Machine

/-- An error without addresses leaves the block and answers the bare status (R202 to R204). -/
theorem answer_raise (e : Status) (s : State) : answer s (raise e 0 0 s.block) = afterError s (bare e) := rfl

/-- The operands of an ENC or DEF, encoded, are the fields' value, encoded (R86 to R88). -/
theorem encodeScalar_eq {f : Fields} {v : Scalar} {w : Width} (hv : scalarOperands f = some v)
    (hw : w.words = f.width.toNat) :
    encodeScalar v = encodeValue f.vnum.toInt f.vden.toNat f.sc.toNat w (f.s == 1) := by
  obtain ⟨hnum, hden, -, hscale, hwidth, hsigned⟩ := scalarOperands_eq_some hv
  have hwords : v.width = w :=
    Option.some.inj ((widthOf_eq_some.mpr hwidth.symm).symm.trans (widthOf_eq_some.mpr hw.symm))
  rw [encodeScalar, hnum, hden, hscale, hsigned, hwords]

/-- What the encoder gives on the operands of an ENC or DEF, in terms of the integer of R112. -/
theorem encodeScalar_cases {f : Fields} {v : Scalar} {w : Width} {t : Int} (hv : scalarOperands f = some v)
    (hw : w.words = f.width.toNat) (ht : IsTruncated f.vnum.toInt f.vden.toNat f.sc.toNat t) :
    ((t < rangeLo w (f.s == 1) ∨ rangeHi w (f.s == 1) < t) ∧ encodeScalar v = none) ∨
    (InRange w (f.s == 1) t ∧ encodeScalar v = some (emit w t)) := by
  obtain ⟨-, hden, hpos, -⟩ := scalarOperands_eq_some hv
  have htrunc := eq_truncated (hden ▸ hpos) ht
  rw [encodeScalar_eq hv hw]
  by_cases hin : InRange w (f.s == 1) t
  · exact .inr ⟨hin, encodeValue_of_truncated_eq htrunc.symm hin⟩
  · have hout : t < rangeLo w (f.s == 1) ∨ rangeHi w (f.s == 1) < t := by
      rwa [InRange, not_and_or, not_le, not_le] at hin
    exact .inl ⟨hout, encodeValue_eq_none.mpr (htrunc ▸ hout)⟩

theorem encCommand_failed (f : Fields) {b : Block} (hp : b.phase = .failed) :
    encCommand f b = raise .failedRefused 0 0 b := by
  rcases encCommand_cases f b with ⟨-, e⟩ | ⟨hne, -⟩ | ⟨_, hne, -⟩ | ⟨_, _, hne, -⟩
  · exact e
  all_goals exact absurd hp hne

theorem encCommand_malformed {f : Fields} {b : Block} (hp : b.phase ≠ .failed)
    (hwf : (Instr.enc f).wellFormed = false) : encCommand f b = raise .badCommand 0 0 b := by
  have hnone : (encOperands f).isSome = false := (encOperands_isSome f).trans hwf
  rcases encCommand_cases f b with ⟨hfailed, -⟩ | ⟨-, -, e⟩ | ⟨v, -, hv, -⟩ | ⟨v, _, -, hv, -⟩
  · exact absurd hfailed hp
  · exact e
  all_goals rw [hv] at hnone; cases hnone

/-- A well-formed ENC answers by the range of T alone, outside FAILED (R110, R114). -/
theorem encCommand_wellFormed {f : Fields} {b : Block} {w : Width} {t : Int} (hp : b.phase ≠ .failed)
    (hwf : (Instr.enc f).wellFormed = true) (hw : w.words = f.width.toNat)
    (ht : IsTruncated f.vnum.toInt f.vden.toNat f.sc.toNat t) :
    ((t < rangeLo w (f.s == 1) ∨ rangeHi w (f.s == 1) < t) ∧ encCommand f b = raise .cfgRange 0 0 b) ∨
    (InRange w (f.s == 1) t ∧ encCommand f b = succeed 0 0 (emit w t) b) := by
  have hsome : (encOperands f).isSome = true := (encOperands_isSome f).trans hwf
  rcases encCommand_cases f b with ⟨hfailed, -⟩ | ⟨-, hnone, -⟩ | ⟨v, -, hv, he, e⟩ | ⟨v, ws, -, hv, he, e⟩
  · exact absurd hfailed hp
  · rw [hnone] at hsome; cases hsome
  · rcases encodeScalar_cases (encOperands_eq_some hv) hw ht with ⟨hout, -⟩ | ⟨-, hgives⟩
    · exact .inl ⟨hout, e⟩
    · rw [he] at hgives; cases hgives
  · rcases encodeScalar_cases (encOperands_eq_some hv) hw ht with ⟨-, hnone⟩ | ⟨hin, hgives⟩
    · rw [he] at hnone; cases hnone
    · cases he.symm.trans hgives
      exact .inr ⟨hin, e⟩

/-- Settles O15: the integer described is T, so the range decides and the words decode to it. -/
theorem encAnswersTheEncodedWords : Obligations.EncAnswersTheEncodedWords := by
  intro f s w t hp hwf hw ht hlo hhi
  have hin : InRange w (f.s == 1) t := ⟨hlo, hhi⟩
  refine ⟨emit w t, (emit_length w t).trans hw, decode_emit_of_inRange hin, ?_⟩
  rcases encCommand_wellFormed hp hwf hw ht with ⟨hout, -⟩ | ⟨-, e⟩
  · omega
  · rw [exec_enc, e]
    rfl

/-- Settles O16. -/
theorem encErrorsChangeNothing : Obligations.EncErrorsChangeNothing := by
  refine fun f s => ⟨fun hp => ?_, fun hp hwf => ?_, fun w t hp hwf hw ht hout => ?_⟩
  · rw [exec_enc, encCommand_failed f hp, answer_raise]
  · rw [exec_enc, encCommand_malformed hp hwf, answer_raise]
  · rcases encCommand_wellFormed hp hwf hw ht with ⟨-, e⟩ | ⟨⟨hlo, hhi⟩, -⟩
    · rw [exec_enc, e, answer_raise]
    · omega

end Sys2Proof.Proofs
end

section
/-!
DEF (spec/41_build.md R140 to R147): one equation per failing check, and what a DEF in range does over taken and over
free cells.
-/

namespace Sys2Proof.Proofs

open Sys2Proof.Machine

/-! ### Well-formedness and the operands (R85, R142) -/

/-- The five ways of being malformed (R142). -/
theorem define_malformed_iff (f : Fields) : (Instr.define f).wellFormed = false ↔
    f.width = 0 ∨ f.width = 3 ∨ f.vden = 0 ∨ f.cls ≠ 0 ∨ f.rsv ≠ 0 := by
  have hwidth : ∀ v : BitVec 2, (v == 1 || v == 2) = false ↔ v = 0 ∨ v = 3 := by decide
  simp only [Instr.wellFormed, Fields.scalarOk, Bool.and_eq_false_iff, hwidth, beq_eq_false_iff_ne,
    bne_eq_false_iff_eq]
  tauto

theorem defOperands_of_wellFormed {f : Fields} (hwf : (Instr.define f).wellFormed = true) :
    ∃ v, defOperands f = some v ∧ v.width.words = f.width.toNat := by
  obtain ⟨v, hv⟩ := Option.isSome_iff_exists.mp ((defOperands_isSome f).trans hwf)
  obtain ⟨-, -, -, -, hwidth, -⟩ := scalarOperands_eq_some (defOperands_eq_some hv)
  exact ⟨v, hv, hwidth⟩

/-- Only two words at the last address pass the end of the space (R143). -/
theorem top_of_past_top {f : Fields} (hwf : (Instr.define f).wellFormed = true)
    (hpast : 0x10000 < f.addr.toNat + f.width.toNat) : f.addr = 0xFFFF ∧ f.width = 2 := by
  obtain ⟨v, -, hwidth⟩ := defOperands_of_wellFormed hwf
  have htwo : v.width.words ≤ 2 := (Width.words_bounds v.width).2
  have haddr : f.addr.toNat ≤ 0xFFFF := addr_le f
  exact ⟨BitVec.eq_of_toNat_eq (show f.addr.toNat = 0xFFFF by omega),
    BitVec.eq_of_toNat_eq (show f.width.toNat = 2 by omega)⟩

/-- The words of a well-formed DEF, in terms of the integer of R112. -/
theorem defWords_cases {f : Fields} {w : Width} {t : Int} (hwf : (Instr.define f).wellFormed = true)
    (hw : w.words = f.width.toNat) (ht : IsTruncated f.vnum.toInt f.vden.toNat f.sc.toNat t) :
    ((t < rangeLo w (f.s == 1) ∨ rangeHi w (f.s == 1) < t) ∧ defWords f = none) ∨
    (InRange w (f.s == 1) t ∧ defWords f = some (emit w t)) := by
  obtain ⟨v, hv, -⟩ := defOperands_of_wellFormed hwf
  rw [defWords_of_operands hv]
  exact encodeScalar_cases (defOperands_eq_some hv) hw ht

/-! ### The lowest and the highest colliding address (R26, R145) -/

theorem colliding_unique {m : Memory} {addr n lo hi lo' hi' : Nat} (h : Colliding m addr n lo hi)
    (h' : Colliding m addr n lo' hi') : lo = lo' ∧ hi = hi' := by
  have hlo := h.between lo' h'.loIn.1 h'.loIn.2 h'.loTaken
  have hlo' := h'.between lo h.loIn.1 h.loIn.2 h.loTaken
  have hhi := h.between hi' h'.hiIn.1 h'.hiIn.2 h'.hiTaken
  have hhi' := h'.between hi h.hiIn.1 h.hiIn.2 h.hiTaken
  omega

/-- A collision is a taken cell in the range. -/
theorem not_free_of_colliding {m : Memory} {f : Fields} {lo hi : Nat}
    (h : Colliding m f.addr.toNat f.width.toNat lo hi) : ¬ ∀ a, Covers f a → cellAt m a = none := fun hfree => by
  have htaken := h.loTaken
  rw [hfree lo h.loIn] at htaken
  cases htaken

/-! ### DEF by phase and by check -/

theorem transactInstr_define (f : Fields) (b : Block) : transactInstr (.define f) b = defCommand f b := rfl

theorem defCommand_failed (f : Fields) {b : Block} (hp : b.phase = .failed) :
    defCommand f b = raise .failedRefused 0 0 b := by simp only [defCommand, hp]

theorem defCommand_serve (f : Fields) {b : Block} (hp : b.phase = .serve) :
    defCommand f b = raise .phaseError 0 0 b := by simp only [defCommand, hp]

theorem defCommand_malformed {f : Fields} {b : Block} (hbuild : b.phase = .build)
    (hwf : (Instr.define f).wellFormed = false) :
    defCommand f b = fatal .cfgSpec f.addr.toNat f.addr.toNat b := by
  have hnone : defOperands f = none := by
    rw [← Option.not_isSome_iff_eq_none, defOperands_isSome, hwf]
    decide
  simp only [defCommand, hbuild, hnone]

theorem defCommand_of_operands {f : Fields} {b : Block} {v : Scalar} (hbuild : b.phase = .build)
    (hv : defOperands f = some v) : defCommand f b = placeEntry f.addr.toNat v b := by
  simp only [defCommand, hbuild, hv]

theorem defCommand_past_top {f : Fields} {b : Block} (hbuild : b.phase = .build)
    (hwf : (Instr.define f).wellFormed = true) (hpast : 0x10000 < f.addr.toNat + f.width.toNat) :
    defCommand f b = fatal .cfgAddr f.addr.toNat f.addr.toNat b := by
  obtain ⟨v, hv, hwidth⟩ := defOperands_of_wellFormed hwf
  rw [defCommand_of_operands hbuild hv, placeEntry_past_top b (by omega)]

theorem defCommand_out_of_range {f : Fields} {b : Block} (hbuild : b.phase = .build)
    (hwf : (Instr.define f).wellFormed = true) (hfits : f.addr.toNat + f.width.toNat ≤ 0x10000)
    (hrange : defWords f = none) : defCommand f b = fatal .cfgRange f.addr.toNat f.addr.toNat b := by
  obtain ⟨v, hv, hwidth⟩ := defOperands_of_wellFormed hwf
  rw [defWords_of_operands hv] at hrange
  rw [defCommand_of_operands hbuild hv]
  rcases placeEntry_cases f.addr.toNat v b with
    ⟨hpast, -⟩ | ⟨-, -, e⟩ | ⟨ws, _, _, -, hws, -⟩ | ⟨ws, -, hws, -⟩
  · omega
  · exact e
  all_goals rw [hrange] at hws; cases hws

/-- A DEF that fits and is in range meets a taken cell and is fatal, or meets free cells only and is inserted (R145). -/
theorem defCommand_in_range {f : Fields} {b : Block} {ws : List Word} (hbuild : b.phase = .build)
    (hfits : f.addr.toNat + f.width.toNat ≤ 0x10000) (hws : defWords f = some ws) :
    (∃ lo hi, Colliding b.cell f.addr.toNat f.width.toNat lo hi ∧ defCommand f b = fatal .cfgOverlap lo hi b) ∨
    ((∀ a, Covers f a → cellAt b.cell a = none) ∧ defCommand f b =
      succeed f.addr.toNat (f.addr.toNat + f.width.toNat - 1) ws (insertEntry f.addr.toNat ws b)) := by
  obtain ⟨v, hv, hwidth⟩ := defOperands_of_wellFormed (wellFormed_of_defWords (hws ▸ Option.some_ne_none ws))
  rw [defWords_of_operands hv] at hws
  rw [defCommand_of_operands hbuild hv, ← hwidth]
  rcases placeEntry_cases f.addr.toNat v b with
    ⟨hpast, -⟩ | ⟨-, hnone, -⟩ | ⟨_, lo, hi, -, -, hcol, e⟩ | ⟨ws', -, hws', hcol, e⟩
  · omega
  · rw [hws] at hnone; cases hnone
  · exact .inl ⟨lo, hi, collision_eq_some hcol, e⟩
  · cases hws.symm.trans hws'
    exact .inr ⟨fun a ha => collision_eq_none.mp hcol a ha.1 (hwidth ▸ ha.2), e⟩

theorem defCommand_overlap {f : Fields} {b : Block} (hbuild : b.phase = .build)
    (hfits : f.addr.toNat + f.width.toNat ≤ 0x10000) (hrange : defWords f ≠ none) {lo hi : Nat}
    (hcol : Colliding b.cell f.addr.toNat f.width.toNat lo hi) : defCommand f b = fatal .cfgOverlap lo hi b := by
  obtain ⟨ws, hws⟩ := Option.ne_none_iff_exists'.mp hrange
  rcases defCommand_in_range hbuild hfits hws with ⟨lo', hi', hcol', e⟩ | ⟨hfree, -⟩
  · obtain ⟨rfl, rfl⟩ := colliding_unique hcol hcol'
    exact e
  · exact absurd hfree (not_free_of_colliding hcol)

theorem defCommand_free {f : Fields} {b : Block} {ws : List Word} (hbuild : b.phase = .build)
    (hfits : f.addr.toNat + f.width.toNat ≤ 0x10000) (hws : defWords f = some ws)
    (hfree : ∀ a, Covers f a → cellAt b.cell a = none) : defCommand f b =
      succeed f.addr.toNat (f.addr.toNat + f.width.toNat - 1) ws (insertEntry f.addr.toNat ws b) := by
  rcases defCommand_in_range hbuild hfits hws with ⟨lo, hi, hcol, -⟩ | ⟨-, e⟩
  · exact absurd hfree (not_free_of_colliding hcol)
  · exact e

/-- A DEF in BUILD that is not accepted is fatal, whichever check fails (R146). -/
theorem defCommand_fatal {f : Fields} {b : Block} (hbuild : b.phase = .build)
    (hfail : (defCommand f b).2.status ≠ .ok) :
    ∃ e lo hi, e.isConfigurationError = true ∧ defCommand f b = fatal e lo hi b := by
  cases hv : defOperands f with
  | none => exact ⟨.cfgSpec, f.addr.toNat, f.addr.toNat, rfl, by simp only [defCommand, hbuild, hv]⟩
  | some v =>
    rw [defCommand_of_operands hbuild hv] at hfail ⊢
    obtain ⟨e, lo, hi, hnames, heq⟩ := placeEntry_fatal (addr_le f) hfail
    exact ⟨e, lo, hi, hnames.configuration, heq⟩

/-! ### The statements -/

/-- A fatal error writes its four registers and answers its addresses (R146). -/
theorem answer_fatal (e : Status) (lo hi : Nat) (s : State) :
    answer s (fatal e lo hi s.block) = afterFatal s e.code lo hi (atAddresses e lo hi) := rfl

/-- Settles O19. -/
theorem defOutsideBuildIsRefused : Obligations.DefOutsideBuildIsRefused := by
  refine fun f s => ⟨fun hp => ?_, fun hp => ?_⟩
  · rw [exec_define, defCommand_serve f hp, answer_raise]
  · rw [exec_define, defCommand_failed f hp, answer_raise]

/-- Settles O17: the words are those of T, and the memory is the one with the entry inserted. -/
theorem defInsertsTheEntry : Obligations.DefInsertsTheEntry := by
  intro f s w t hbuild hwf hw hfits ht hlo hhi hfree
  rcases defWords_cases hwf hw ht with ⟨hout, -⟩ | ⟨hin, hws⟩
  · omega
  · refine ⟨emit w t, (insertEntry f.addr.toNat (emit w t) s.block).cell, (emit_length w t).trans hw,
      decode_emit_of_inRange hin, fun a => (cellAt_insertEntry s.block a hfits hws).1,
      fun a => (cellAt_insertEntry s.block a hfits hws).2, ?_⟩
    rw [exec_define, defCommand_free hbuild hfits hws hfree]
    rfl

/-- Settles O18: one equation per check, in their order. -/
theorem defFailuresAreFatal : Obligations.DefFailuresAreFatal := by
  refine fun f s hbuild => ⟨define_malformed_iff f, fun hwf => ?_, fun hwf hpast => ?_,
    fun w t hwf hw hfits ht => ⟨fun hout => ?_, fun hlo hhi lo hi hcol => ?_⟩⟩
  · rw [exec_define, defCommand_malformed hbuild hwf, answer_fatal]
    rfl
  · obtain ⟨haddr, hwidth⟩ := top_of_past_top hwf hpast
    refine ⟨haddr, hwidth, ?_⟩
    rw [exec_define, defCommand_past_top hbuild hwf hpast, answer_fatal, haddr]
    rfl
  · rcases defWords_cases hwf hw ht with ⟨-, hnone⟩ | ⟨⟨hlo, hhi⟩, -⟩
    · rw [exec_define, defCommand_out_of_range hbuild hwf hfits hnone, answer_fatal]
      rfl
    · omega
  · rcases defWords_cases hwf hw ht with ⟨hout, -⟩ | ⟨-, hws⟩
    · omega
    · rw [exec_define, defCommand_overlap hbuild hfits (hws ▸ Option.some_ne_none _) hcol, answer_fatal]
      rfl

/-- Settles O20: after the first DEF a cell is taken where it was before or the first range has it. -/
theorem overlapIsSharingAnAddress : Obligations.OverlapIsSharingAnAddress := by
  intro f g b hok _ hgfits hgrange hgfree
  obtain ⟨hbuild, -, hffits, ws, hws, -, e⟩ := defCommand_accepted hok
  obtain ⟨ws', hws'⟩ := Option.ne_none_iff_exists'.mp hgrange
  have hcell (a : Nat) := cellAt_insertEntry b a hffits hws
  have hbuilt : (insertEntry f.addr.toNat ws b).phase = .build := hbuild
  rw [transactInstr_define f, e, succeed_block, transactInstr_define]
  refine ⟨fun ⟨a, hfa, hga⟩ => ?_, fun hapart => ?_⟩
  · rcases defCommand_in_range hbuilt hgfits hws' with ⟨lo, hi, -, e'⟩ | ⟨hfree, -⟩
    · rw [e', fatal_status]
    · have hlen : ws.length = f.width.toNat := defWords_length hws
      obtain ⟨hle, hlt⟩ := hfa
      have hnone : ws[a - f.addr.toNat]? = none := ((hcell a).1 ⟨hle, hlt⟩).symm.trans (hfree a hga)
      rw [List.getElem?_eq_none_iff] at hnone
      omega
  · rw [defCommand_free hbuilt hgfits hws' fun a hga => ?_, succeed_status]
    rw [(hcell a).2 fun hfa => hapart a ⟨hfa, hga⟩, hgfree a hga]

end Sys2Proof.Proofs
end

section
/-! COMMIT (spec/41_build.md R150, R151). -/

namespace Sys2Proof.Proofs

open Sys2Proof.Machine

theorem commitCommand_failed (f : Fields) {b : Block} (hp : b.phase = .failed) :
    commitCommand f b = raise .failedRefused 0 0 b := by simp only [commitCommand, hp]

theorem commitCommand_serve (f : Fields) {b : Block} (hp : b.phase = .serve) :
    commitCommand f b = raise .phaseError 0 0 b := by simp only [commitCommand, hp]

theorem commitCommand_malformed {f : Fields} {b : Block} (hbuild : b.phase = .build) (hf : f ≠ Fields.zero) :
    commitCommand f b = raise .badCommand 0 0 b := by
  simp only [commitCommand, hbuild, commitOperands, if_neg hf]

theorem commitCommand_wellFormed {b : Block} (hbuild : b.phase = .build) :
    commitCommand Fields.zero b = succeed 0 0 [] { b with phase := .serve } := by
  simp only [commitCommand, hbuild, commitOperands, if_pos]

theorem transact_commitWord (b : Block) : transact commitWord b = commitCommand Fields.zero b := transact_encode _ b

/-- Settles O21. -/
theorem commitStartsServing : Obligations.CommitStartsServing := by
  refine ⟨fun f s => ⟨fun hp hf => ?_, fun hp hf => ?_, fun hp => ?_, fun hp => ?_⟩, ?_⟩
  · obtain rfl : f = Fields.zero := hf
    rw [exec_commit, commitCommand_wellFormed hp]
    rfl
  · rw [exec_commit, commitCommand_malformed hp hf, answer_raise]
  · rw [exec_commit, commitCommand_serve f hp, answer_raise]
  · rw [exec_commit, commitCommand_failed f hp, answer_raise]
  · have hword : (0x03000000000000000000000000000000 : CommandWord) = commitWord := by decide
    rw [hword, transact_commitWord, commitCommand_wellFormed Block.reset_phase]
    rfl

end Sys2Proof.Proofs
end

section
/-!
Build programs from reset (spec/41_build.md R149, R153). As long as the DEFs are acceptable together the block holds
them all; the first that is not acceptable beside those before it is fatal, and FAILED keeps the block.
-/

namespace Sys2Proof.Proofs

open Sys2Proof.Machine

/-! ### Every command in FAILED (R206) -/

theorem readCommand_failed (f : Fields) {b : Block} (hp : b.phase = .failed) :
    readCommand f b = raise .failedRefused 0 0 b := by simp only [readCommand, hp]

theorem writeCommand_failed (f : Fields) {b : Block} (hp : b.phase = .failed) :
    writeCommand f b = raise .failedRefused 0 0 b := by simp only [writeCommand, hp]

theorem reservedCommand_failed {b : Block} (hp : b.phase = .failed) :
    reservedCommand b = raise .failedRefused 0 0 b := by simp only [reservedCommand, hp]

theorem transactInstr_failed (i : Instr) {b : Block} (hp : b.phase = .failed) :
    transactInstr i b = raise .failedRefused 0 0 b := by
  cases i with
  | enc f => exact encCommand_failed f hp
  | define f => exact defCommand_failed f hp
  | commit f => exact commitCommand_failed f hp
  | read f => exact readCommand_failed f hp
  | write f => exact writeCommand_failed f hp

theorem transact_failed (w : CommandWord) {b : Block} (hp : b.phase = .failed) :
    transact w b = raise .failedRefused 0 0 b := by
  unfold transact
  cases decode w with
  | error d => exact reservedCommand_failed hp
  | ok i => exact transactInstr_failed i hp

theorem runCommands_failed (ws : List CommandWord) {b : Block} (hp : b.phase = .failed) :
    (runCommands ws b).1 = b := by
  induction ws with
  | nil => rfl
  | cons w ws ih => rw [runCommands, transact_failed w hp, raise_block, ih]

/-! ### Lists of acceptable specs -/

theorem acceptable_of_sublist {fs gs : List Fields} (h : Acceptable gs) (hsub : fs.Sublist gs) : Acceptable fs where
  wellFormed f hf := h.wellFormed f (hsub.subset hf)
  fits f hf := h.fits f (hsub.subset hf)
  inRange f hf := h.inRange f (hsub.subset hf)
  disjoint := h.disjoint.sublist hsub

theorem acceptable_of_perm {fs gs : List Fields} (hperm : fs.Perm gs) (h : Acceptable fs) : Acceptable gs where
  wellFormed f hf := h.wellFormed f (hperm.mem_iff.mpr hf)
  fits f hf := h.fits f (hperm.mem_iff.mpr hf)
  inRange f hf := h.inRange f (hperm.mem_iff.mpr hf)
  disjoint := hperm.pairwise h.disjoint fun hapart a hboth => hapart a hboth.symm

theorem inUnion_perm {fs gs : List Fields} (hperm : fs.Perm gs) (a : Nat) (x : Word) :
    InUnion fs a x ↔ InUnion gs a x := by
  simp only [InUnion, hperm.mem_iff]

/-- A spec that is acceptable beside those the block holds meets free cells only. -/
theorem free_of_acceptable {fs : List Fields} {f : Fields} {b : Block} (h : HoldsEntries fs b)
    (hacc : Acceptable (fs ++ [f])) (a : Nat) (ha : Covers f a) : cellAt b.cell a = none := by
  cases hx : cellAt b.cell a with
  | none => rfl
  | some x =>
    obtain ⟨g, hg, ws, hws, hle, hput⟩ := (h.cells a x).mp hx
    have hapart := (List.pairwise_append.mp hacc.disjoint).2.2 g hg f (List.mem_singleton_self f)
    exact absurd ⟨covers_of_getElem? hws hle hput, ha⟩ (hapart a)

/-! ### The blocks on the way -/

/-- The block is in phase `p`, has the invariants, and holds exactly the entries `fs`. -/
structure HoldsIn (fs : List Fields) (p : Phase) (b : Block) : Prop where
  entries : HoldsEntries fs b
  inv : b.Inv
  phase : b.phase = p

theorem reset_holdsIn : HoldsIn [] .build Block.reset := ⟨reset_holdsEntries, reset_block_inv, rfl⟩

theorem HoldsIn.error_registers_clear {fs : List Fields} {p : Phase} {b : Block} (h : HoldsIn fs p b)
    (hp : p ≠ .failed) : b.ecode = 0 ∧ b.eaddrLo = 0 ∧ b.eaddrHi = 0 := by
  have he : b.ecode = 0 := ecode_eq_zero h.inv (h.phase ▸ hp)
  exact ⟨he, h.inv.clearBeforeError he⟩

/-- Outside FAILED the entries fix the block, in whatever order they came (R153). -/
theorem HoldsIn.eq_of_perm {fs gs : List Fields} {p : Phase} {b c : Block} (hperm : fs.Perm gs) (hp : p ≠ .failed)
    (hb : HoldsIn fs p b) (hc : HoldsIn gs p c) : b = c := by
  have hcell : b.cell = c.cell := equalCellsAreEqualMaps _ _ hb.inv.canonical hc.inv.canonical fun a =>
    Option.ext fun x => by rw [hb.entries.cells, hc.entries.cells, inUnion_perm hperm]
  have hnent : b.nent = c.nent := by rw [hb.entries.count, hc.entries.count, hperm.length_eq]
  obtain ⟨hbe, hblo, hbhi⟩ := hb.error_registers_clear hp
  obtain ⟨hce, hclo, hchi⟩ := hc.error_registers_clear hp
  have hphase : b.phase = c.phase := hb.phase.trans hc.phase.symm
  cases b
  cases c
  simp_all only

/-! ### One DEF after another -/

/-- Beside the entries that the block holds, a DEF is accepted exactly where it is acceptable (R149). -/
theorem HoldsIn.define {fs : List Fields} {b : Block} (h : HoldsIn fs .build b) (f : Fields) :
    ((defCommand f b).2.status = .ok ∧ HoldsIn (fs ++ [f]) .build (defCommand f b).1) ∨
    (¬ Acceptable (fs ++ [f]) ∧ (defCommand f b).2.status.isConfigurationError = true ∧
      (defCommand f b).1.phase = .failed) := by
  have heffect := defCommand_effect f b
  by_cases hok : (defCommand f b).2.status = .ok
  · have hphase : (defCommand f b).1.phase = .build := by
      obtain ⟨-, -, -, ws, -, -, e⟩ := defCommand_accepted hok
      rw [e, succeed_block, insertEntry_phase, h.phase]
    exact .inl ⟨hok, heffect.accepted_holdsEntries h.entries hok, heffect.keeps_inv h.inv, hphase⟩
  · refine .inr ⟨fun hacc => hok ?_, ?_⟩
    · have hmem : f ∈ fs ++ [f] := List.mem_append_right fs (List.mem_singleton_self f)
      obtain ⟨ws, hws⟩ := Option.ne_none_iff_exists'.mp (hacc.inRange f hmem)
      rw [defCommand_free h.phase (hacc.fits f hmem) hws (free_of_acceptable h.entries hacc), succeed_status]
    · obtain ⟨e, lo, hi, hconf, heq⟩ := defCommand_fatal h.phase hok
      rw [heq]
      exact ⟨hconf, rfl⟩

/-- The DEFs of a build program. -/
abbrev defines (fs : List Fields) : List CommandWord := fs.map fun f => encode (.define f)

theorem runCommands_define_cons (f : Fields) (ws : List CommandWord) (b : Block) :
    runCommands (encode (.define f) :: ws) b =
      ((runCommands ws (defCommand f b).1).1, (defCommand f b).2 :: (runCommands ws (defCommand f b).1).2) := by
  rw [runCommands, transact_encode, transactInstr_define]

/-- DEFs on top of the entries that the block holds: all are accepted, or together they are not acceptable and one of
them was fatal. -/
theorem HoldsIn.run_defines {fs : List Fields} {b : Block} (h : HoldsIn fs .build b) (gs : List Fields) :
    (HoldsIn (fs ++ gs) .build (runCommands (defines gs) b).1 ∧
      ∀ r ∈ (runCommands (defines gs) b).2, r.status = .ok) ∨
    (¬ Acceptable (fs ++ gs) ∧ (runCommands (defines gs) b).1.phase = .failed ∧
      ∃ r ∈ (runCommands (defines gs) b).2, r.status.isConfigurationError = true) := by
  induction gs generalizing fs b with
  | nil => exact .inl ⟨(List.append_nil fs).symm ▸ h, fun r hr => by cases hr⟩
  | cons g gs ih =>
    rw [defines, List.map_cons, runCommands_define_cons, List.append_cons]
    rcases h.define g with ⟨hok, hnext⟩ | ⟨hnot, hconf, hfailed⟩
    · rcases ih hnext with ⟨hend, hall⟩ | ⟨hnot, hfailed, r, hr, hconf⟩
      · exact .inl ⟨hend, List.forall_mem_cons.mpr ⟨hok, hall⟩⟩
      · exact .inr ⟨hnot, hfailed, r, List.mem_cons_of_mem _ hr, hconf⟩
    · refine .inr ⟨fun hacc => hnot (acceptable_of_sublist hacc (List.sublist_append_left _ _)), ?_, _,
        List.mem_cons_self, hconf⟩
      rw [runCommands_failed _ hfailed, hfailed]

/-! ### The whole program -/

theorem runCommands_concat (ws : List CommandWord) (w : CommandWord) (b : Block) :
    runCommands (ws ++ [w]) b =
      ((transact w (runCommands ws b).1).1, (runCommands ws b).2 ++ [(transact w (runCommands ws b).1).2]) := by
  induction ws generalizing b with
  | nil => rfl
  | cons v ws ih => simp only [List.cons_append, runCommands, ih]

theorem HoldsIn.commit {fs : List Fields} {b : Block} (h : HoldsIn fs .build b) :
    HoldsIn fs .serve { b with phase := .serve } :=
  ⟨holdsEntries_congr h.entries rfl rfl, commit_keeps_inv h.inv h.phase, rfl⟩

/-- An acceptable build ends in SERVE with its entries, every response OK. -/
theorem buildProgram_served {fs : List Fields} (hacc : Acceptable fs) :
    HoldsIn fs .serve (runCommands (buildProgram fs) Block.reset).1 ∧
      ∀ r ∈ (runCommands (buildProgram fs) Block.reset).2, r.status = .ok := by
  rw [buildProgram, runCommands_concat, transact_commitWord]
  rcases reset_holdsIn.run_defines fs with ⟨hbuilt, hall⟩ | ⟨hnot, -⟩
  · rw [commitCommand_wellFormed hbuilt.phase]
    exact ⟨hbuilt.commit, List.forall_mem_append.mpr ⟨hall, List.forall_mem_singleton.mpr rfl⟩⟩
  · exact absurd hacc hnot

/-- Settles O48: ECODE is 0 because the phase is not FAILED. -/
theorem acceptableBuildIsServed : Obligations.AcceptableBuildIsServed := by
  intro fs hacc
  obtain ⟨hserved, hall⟩ := buildProgram_served hacc
  obtain ⟨hecode, -, -⟩ := hserved.error_registers_clear Phase.noConfusion
  exact ⟨hall, hserved.phase, hecode, hserved.entries.count, hserved.entries.cells⟩

/-- Settles O49: were every DEF accepted, the block would hold them and they would be acceptable; so one was fatal, and
COMMIT meets FAILED. -/
theorem unacceptableBuildNeverServes : Obligations.UnacceptableBuildNeverServes := by
  intro fs hnot
  rw [buildProgram, runCommands_concat]
  rcases reset_holdsIn.run_defines fs with ⟨hbuilt, -⟩ | ⟨-, hfailed, r, hr, hconf⟩
  · exact absurd hbuilt.entries.acceptable hnot
  · rw [transact_failed commitWord hfailed]
    refine ⟨hfailed, List.getLast?_concat, ⟨r, List.mem_append_left _ hr, hconf⟩, fun w => ?_⟩
    rw [raise_block, transact_failed w hfailed]
    rfl

/-- Settles O50: both orders are served, and the entries fix the block. -/
theorem buildOrderIsFree : Obligations.BuildOrderIsFree := by
  intro fs gs hperm hacc
  obtain ⟨hfs, -⟩ := buildProgram_served hacc
  obtain ⟨hgs, -⟩ := buildProgram_served (acceptable_of_perm hperm hacc)
  exact hfs.eq_of_perm hperm Phase.noConfusion hgs

end Sys2Proof.Proofs
end

section
/-!
Serving the map (spec/42_access.md R170 to R179): READ and WRITE in each phase, the lowest gap of a request, and the
SlaveAdapter's answers.
-/

namespace Sys2Proof.Proofs

open Sys2Proof.Machine

/-! ### READ and WRITE in each phase (R171, R177) -/

/-- A malformed request has no operands (R85). -/
theorem requestOperands_eq_none {f : Fields} (h : f.requestOk = false) : requestOperands f = none := by
  rwa [← Option.isNone_iff_eq_none, ← Option.isSome_eq_false_iff, requestOperands_isSome]

theorem readCommand_build (f : Fields) {b : Block} (hp : b.phase = .build) :
    readCommand f b = raise .phaseError 0 0 b := by simp only [readCommand, hp]

theorem readCommand_malformed {f : Fields} {b : Block} (hserve : b.phase = .serve)
    (hwf : (Instr.read f).wellFormed = false) : readCommand f b = raise .badCommand 0 0 b := by
  simp only [readCommand, hserve, requestOperands_eq_none hwf]

theorem writeCommand_build (f : Fields) {b : Block} (hp : b.phase = .build) :
    writeCommand f b = raise .phaseError 0 0 b := by simp only [writeCommand, hp]

theorem writeCommand_malformed {f : Fields} {b : Block} (hserve : b.phase = .serve)
    (hwf : (Instr.write f).wellFormed = false) : writeCommand f b = raise .badCommand 0 0 b := by
  simp only [writeCommand, hserve, requestOperands_eq_none hwf]

/-- A well-formed WRITE in SERVE is rejected with its address, whatever the cells hold (R177). -/
theorem writeCommand_wellFormed {f : Fields} {b : Block} (hserve : b.phase = .serve)
    (hwf : (Instr.write f).wellFormed = true) :
    writeCommand f b = raise .unsupportedOperation f.addr.toNat 0 b := by
  have hsome : (requestOperands f).isSome = true := (requestOperands_isSome f).trans hwf
  obtain ⟨q, hq⟩ := Option.isSome_iff_exists.mp hsome
  obtain ⟨-, haddr, -, -⟩ := requestOperands_eq_some hq
  simp only [writeCommand, hserve, hq, haddr]

/-- An error that names an address leaves the block and answers no word (R202 to R204). -/
theorem answer_raise_at (e : Status) (a0 a1 : Nat) (s : State) :
    answer s (raise e a0 a1 s.block) = afterError s (atAddresses e a0 a1) := rfl

/-- Settles O24. -/
theorem readRefusals : Obligations.ReadRefusals := by
  refine fun f s => ⟨fun hp => ?_, fun hp => ?_, fun hp hwf => ?_⟩
  · rw [exec_read, readCommand_failed f hp, answer_raise]
  · rw [exec_read, readCommand_build f hp, answer_raise]
  · rw [exec_read, readCommand_malformed hp hwf, answer_raise]

/-- Settles O28: one equation per phase, and in SERVE one per verdict on the fields. -/
theorem writeIsAlwaysRejected : Obligations.WriteIsAlwaysRejected := by
  refine fun f s => ⟨fun hp => ?_, fun hp => ?_, fun hp hwf => ?_, fun hp hwf => ?_⟩
  · rw [exec_write, writeCommand_failed f hp, answer_raise]
  · rw [exec_write, writeCommand_build f hp, answer_raise]
  · rw [exec_write, writeCommand_malformed hp hwf, answer_raise]
  · rw [exec_write, writeCommand_wellFormed hp hwf, answer_raise_at]

/-! ### The resource class (R174) -/

/-- The class of a request is carried into its operands and touches nothing else of them. -/
theorem requestOperands_cls (f : Fields) (c : BitVec 2) :
    requestOperands { f with cls := c } = (requestOperands f).map fun q => { q with cls := classOf c } := by
  simp only [requestOperands]
  split <;> rfl

theorem readCommand_cls (f : Fields) (c : BitVec 2) (b : Block) :
    readCommand { f with cls := c } b = readCommand f b := by
  simp only [readCommand, requestOperands_cls]
  cases requestOperands f <;> rfl

theorem writeCommand_cls (f : Fields) (c : BitVec 2) (b : Block) :
    writeCommand { f with cls := c } b = writeCommand f b := by
  simp only [writeCommand, requestOperands_cls]
  cases requestOperands f <;> rfl

/-- Settles O25: the class reaches the operands only, and neither command looks at it there. -/
theorem resourceClassSelectsNothing : Obligations.ResourceClassSelectsNothing := fun f c s =>
  ⟨by rw [exec_read, exec_read, readCommand_cls], by rw [exec_write, exec_write, writeCommand_cls]⟩

/-- Settles O26: no command changes the block in SERVE, so that the second READ meets the block of the first, and the
class has no part in the answer. -/
theorem readsAreIdempotent : Obligations.ReadsAreIdempotent := by
  intro f c b between hserve
  have hread : (transactInstr (.read f) b).1 = b := (transactInstr_effect (.read f) b).serve_unchanged hserve
  rw [hread, serveIsImmutable between b hserve]
  exact congrArg Prod.snd (readCommand_cls f c b)

/-! ### Mapped ranges and their lowest gap (R57, R172, R173) -/

theorem allMapped_of_words {m : Memory} {addr n : Nat} {ws : List Word} (hlen : ws.length = n)
    (hcells : ∀ i, i < n → cellAt m (addr + i) = ws[i]?) : AllMapped m addr n := by
  intro i hi
  rw [hcells i hi, List.getElem?_eq_getElem (by omega)]
  rfl

/-- A mapped range does not reach 0x10000, which has no backing value (R58). -/
theorem allMapped_inSpace {m : Memory} {addr n : Nat} (h : AllMapped m addr n) (haddr : addr ≤ 0xFFFF) :
    addr + n ≤ 0x10000 := by
  by_contra hpast
  have htop : addr + (0x10000 - addr) < 0x10000 := lt_of_cellAt_isSome (h (0x10000 - addr) (by omega))
  omega

theorem firstGap_not_allMapped {m : Memory} {addr n x : Nat} (hgap : FirstGap m addr n x) : ¬ AllMapped m addr n := by
  intro hall
  obtain ⟨i, rfl⟩ := Nat.exists_eq_add_of_le hgap.above
  have hsome := hall i (Nat.add_lt_add_iff_left.mp hgap.below)
  rw [hgap.gap] at hsome
  cases hsome

/-- Below the lowest gap there is none. -/
theorem firstGap_le_of_firstGap {m : Memory} {addr n x y : Nat} (hx : FirstGap m addr n x)
    (hy : FirstGap m addr n y) : x ≤ y := by
  by_contra hlt
  have hsome := hx.lowest y hy.above (by omega)
  rw [hy.gap] at hsome
  cases hsome

theorem firstGap_unique {m : Memory} {addr n x y : Nat} (hx : FirstGap m addr n x) (hy : FirstGap m addr n y) : x = y :=
  Nat.le_antisymm (firstGap_le_of_firstGap hx hy) (firstGap_le_of_firstGap hy hx)

theorem firstGap_single {m : Memory} {addr : Nat} (h : cellAt m addr = none) : FirstGap m addr 1 addr :=
  ⟨Nat.le_refl _, Nat.lt_succ_self _, h, fun _ hle hlt => absurd hlt (Nat.not_lt_of_le hle)⟩

/-! ### A well-formed READ in SERVE (R172, R173) -/

/-- Everything it can answer, over the range that its fields name. -/
theorem readCommand_wellFormed_cases {f : Fields} {b : Block} (hserve : b.phase = .serve)
    (hwf : (Instr.read f).wellFormed = true) :
    (∃ x, FirstGap b.cell f.addr.toNat f.sc.toNat x ∧ readCommand f b = raise .unmappedAddress x 0 b) ∨
    (∃ ws : List Word, ws.length = f.sc.toNat ∧
      (∀ i, i < f.sc.toNat → cellAt b.cell (f.addr.toNat + i) = ws[i]?) ∧
      readCommand f b = succeed f.addr.toNat (f.addr.toNat + f.sc.toNat - 1) ws b) := by
  obtain ⟨q, haddr, hcount, e⟩ := readCommand_wellFormed hserve hwf
  rw [e, ← haddr, ← hcount]
  exact serveRequest_cases q b

theorem readCommand_allMapped {f : Fields} {b : Block} (hserve : b.phase = .serve)
    (hwf : (Instr.read f).wellFormed = true) (hall : AllMapped b.cell f.addr.toNat f.sc.toNat) :
    ∃ ws : List Word, ws.length = f.sc.toNat ∧
      (∀ i, i < f.sc.toNat → cellAt b.cell (f.addr.toNat + i) = ws[i]?) ∧
      readCommand f b = succeed f.addr.toNat (f.addr.toNat + f.sc.toNat - 1) ws b := by
  rcases readCommand_wellFormed_cases hserve hwf with ⟨x, hgap, -⟩ | hwords
  · exact absurd hall (firstGap_not_allMapped hgap)
  · exact hwords

theorem readCommand_not_allMapped {f : Fields} {b : Block} (hserve : b.phase = .serve)
    (hwf : (Instr.read f).wellFormed = true) (hnot : ¬ AllMapped b.cell f.addr.toNat f.sc.toNat) :
    ∃ x, FirstGap b.cell f.addr.toNat f.sc.toNat x ∧ readCommand f b = raise .unmappedAddress x 0 b := by
  rcases readCommand_wellFormed_cases hserve hwf with hgap | ⟨ws, hlen, hcells, -⟩
  · exact hgap
  · exact absurd (allMapped_of_words hlen hcells) hnot

theorem readCommand_gap {f : Fields} {b : Block} {x : Nat} (hserve : b.phase = .serve)
    (hwf : (Instr.read f).wellFormed = true) (hgap : FirstGap b.cell f.addr.toNat f.sc.toNat x) :
    readCommand f b = raise .unmappedAddress x 0 b := by
  obtain ⟨y, hy, e⟩ := readCommand_not_allMapped hserve hwf (firstGap_not_allMapped hgap)
  rw [e, firstGap_unique hgap hy]

/-- The response added last is seen in the machine after it. -/
theorem afterError_inj {s : State} {r r' : Response} (h : afterError s r = afterError s r') : r = r' := by
  have hresponses : s.responses ++ [r] = s.responses ++ [r'] := congrArg State.responses h
  exact List.singleton_inj.mp (List.append_cancel_left hresponses)

/-- Settles O22: a READ that is answered OK met no gap, and one that meets no gap has the words of its cells. -/
theorem readAnswersTheMappedWords : Obligations.ReadAnswersTheMappedWords := by
  refine fun f s hserve hwf => ⟨fun a0 a1 ws hok => ?_, fun hall => ?_⟩
  · by_contra hnot
    obtain ⟨x, -, e⟩ := readCommand_not_allMapped hserve hwf hnot
    rw [exec_read, e, answer_raise_at] at hok
    have hresponse := afterError_inj (Host.Outcome.next.inj hok)
    cases congrArg Response.status hresponse
  · obtain ⟨ws, hlen, hcells, e⟩ := readCommand_allMapped hserve hwf hall
    refine ⟨ws, hlen, hcells, allMapped_inSpace hall (addr_le f), ?_⟩
    rw [exec_read, e]
    rfl

/-- Settles O23: the scan stops at a gap, and there is one lowest gap only. -/
theorem readOfAGapFaults : Obligations.ReadOfAGapFaults := by
  refine ⟨fun f s hserve hwf => ⟨fun hnot => ?_, fun x hgap => ⟨firstGap_le (addr_le f) hgap, ?_⟩⟩,
    fun c s hserve hcell => ?_⟩
  · obtain ⟨x, hgap, -⟩ := readCommand_not_allMapped hserve hwf hnot
    exact ⟨x, hgap⟩
  · rw [exec_read, readCommand_gap hserve hwf hgap, answer_raise_at]
  · have hwf := plainRead_wellFormed c 0x9999 (n := 1) (by decide)
    rw [exec_read, readCommand_gap hserve hwf (firstGap_single hcell), answer_raise_at]
    rfl

/-! ### The SlaveAdapter (R179) -/

theorem transact_adapter_read (c : ResourceClass) (a n : Word) (b : Block) :
    transact (encode (AdapterRequest.instr (.read c a n))) b =
      readCommand ⟨ResourceClass.code c, 0, 0, 0, a, n, 0, 0⟩ b := transact_encode _ b

theorem transact_adapter_write (c : ResourceClass) (a n : Word) (b : Block) :
    transact (encode (AdapterRequest.instr (.write c a n))) b =
      writeCommand ⟨ResourceClass.code c, 0, 0, 0, a, n, 0, 0⟩ b := transact_encode _ b

/-- Settles O29: the command of a request of at least one register is well-formed, and what SERVE answers to it has a
protocol answer. -/
theorem adapterAnswersEveryRequest : Obligations.AdapterAnswersEveryRequest := by
  intro b c a n hserve hn
  have hread := plainRead_wellFormed (ResourceClass.code c) a hn
  have hkept (w : CommandWord) : (transact w b).1 = b := (transact_effect w b).serve_unchanged hserve
  refine ⟨fun hall => ?_, fun hnot => ?_, ?_, hkept _, hkept _⟩
  · obtain ⟨ws, hlen, hcells, e⟩ := readCommand_allMapped hserve hread hall
    refine ⟨ws, hlen, hcells, ?_⟩
    rw [transact_adapter_read, e]
    rfl
  · obtain ⟨x, -, e⟩ := readCommand_not_allMapped hserve hread hnot
    rw [transact_adapter_read, e]
    rfl
  · rw [transact_adapter_write, writeCommand_wellFormed hserve hread]
    rfl

end Sys2Proof.Proofs
end

section
/-!
The response of every command (spec/60_exceptions.md R201 to R203): the status codes, and the addresses and words that
a response carries by its status, the command it answers and the block before it.
-/

namespace Sys2Proof.Proofs

open Sys2Proof.Machine

/-! ### The status codes (R201) -/

/-- The status that a STATUS byte stands for; none for a byte that R201 does not list. -/
def statusOfCode (c : BitVec 8) : Option Status :=
  [Status.ok, .unsupportedOperation, .unmappedAddress, .cfgRange, .cfgOverlap, .cfgAddr, .cfgSpec, .badCommand,
    .phaseError, .failedRefused].find? fun e => e.code == c

theorem statusOfCode_code (e : Status) : statusOfCode e.code = some e := by cases e <;> rfl

theorem code_inj {e e' : Status} (h : e.code = e'.code) : e = e' :=
  Option.some.inj (by rw [← statusOfCode_code e, h, statusOfCode_code])

/-- Settles O42: a status is read back from its code. -/
theorem statusNumbers : Obligations.StatusNumbers :=
  ⟨rfl, rfl, rfl, rfl, rfl, rfl, rfl, rfl, rfl, rfl, fun _ _ => code_inj⟩

/-! ### What the first four checks answer (R205) -/

/-- A command that the checks end by a bare response is answered as R201 says of that status. -/
theorem raise_zero_answers {i : Instr} {b : Block} {e : Status} (h : StatusByChecks i b.phase e)
    (hearly : isEarly e = true) (hspec : e ≠ .cfgSpec) : (raise e 0 0 b).2.Answers (.ok i) b := by
  cases h with
  | inFailed hp => exact ⟨hp, rfl, rfl, rfl⟩
  | wrongPhase hrefused => exact ⟨⟨i, rfl, hrefused⟩, rfl, rfl, rfl⟩
  | malformed hp hallowed hwf he =>
    by_cases hdef : i.opcode = .define
    · rw [if_pos hdef] at he
      exact absurd he hspec
    · rw [if_neg hdef] at he
      subst he
      exact ⟨hp, .inr ⟨i, rfl, hdef, hwf, hallowed⟩, rfl, rfl, rfl⟩
  | own _ _ _ hown => rw [hown] at hearly; cases hearly

theorem reservedCommand_answers (op : BitVec 8) (b : Block) :
    (reservedCommand b).2.Answers (.error (.reservedOpcode op)) b := by
  rcases reservedCommand_cases b with ⟨hp, e⟩ | ⟨hp, e⟩ <;> rw [e]
  · exact ⟨hp, rfl, rfl, rfl⟩
  · exact ⟨hp, .inl ⟨op, rfl⟩, rfl, rfl, rfl⟩

/-! ### The response of each command -/

/-- The 17 bits of A0 and A1 hold ADDR. -/
theorem addr17_toNat (f : Fields) : (BitVec.ofNat 17 f.addr.toNat).toNat = f.addr.toNat :=
  Nat.mod_eq_of_lt (by have := addr_le f; omega)

theorem encCommand_answers (f : Fields) (b : Block) : (encCommand f b).2.Answers (.ok (.enc f)) b := by
  have hchecked := encCommand_checked f b
  rcases encCommand_cases f b with ⟨-, e⟩ | ⟨-, -, e⟩ | ⟨v, hp, -, -, e⟩ | ⟨v, ws, hp, hv, hws, e⟩ <;>
    rw [e] at hchecked ⊢
  · exact raise_zero_answers hchecked rfl Status.noConfusion
  · exact raise_zero_answers hchecked rfl Status.noConfusion
  · exact .inl ⟨f, rfl, hp, rfl, rfl, rfl⟩
  · obtain ⟨-, -, -, -, hwidth, -⟩ := scalarOperands_eq_some (encOperands_eq_some hv)
    exact .inl ⟨f, rfl, hp, rfl, rfl, (encodeScalar_length hws).trans hwidth⟩

/-- A DEF in BUILD, by the checks of R142 to R145 in their order. -/
theorem defCommand_build_answers (f : Fields) {b : Block} (hbuild : b.phase = .build) :
    (defCommand f b).2.Answers (.ok (.define f)) b := by
  have haddr := addr17_toNat f
  cases hwf : (Instr.define f).wellFormed with
  | false =>
    rw [defCommand_malformed hbuild hwf]
    exact ⟨f, rfl, hbuild, hwf, haddr, haddr, rfl⟩
  | true =>
    by_cases hfits : f.addr.toNat + f.width.toNat ≤ 0x10000
    · cases hws : defWords f with
      | none =>
        rw [defCommand_out_of_range hbuild hwf hfits hws]
        exact .inr ⟨f, rfl, hbuild, haddr, haddr, rfl⟩
      | some ws =>
        rcases defCommand_in_range hbuild hfits hws with ⟨lo, hi, hcol, e⟩ | ⟨-, e⟩ <;> rw [e]
        · have hlo : (BitVec.ofNat 17 lo).toNat = lo :=
            Nat.mod_eq_of_lt (by have := lt_of_cellAt_isSome hcol.loTaken; omega)
          have hhi : (BitVec.ofNat 17 hi).toNat = hi :=
            Nat.mod_eq_of_lt (by have := lt_of_cellAt_isSome hcol.hiTaken; omega)
          refine ⟨f, rfl, hbuild, ?_, rfl⟩
          rwa [fatal_a0, fatal_a1, hlo, hhi]
        · exact .inr (.inl ⟨f, rfl, hbuild, haddr, Nat.mod_eq_of_lt (by omega), defWords_length hws⟩)
    · have hpast : 0x10000 < f.addr.toNat + f.width.toNat := Nat.lt_of_not_le hfits
      obtain ⟨htop, -⟩ := top_of_past_top hwf hpast
      rw [defCommand_past_top hbuild hwf hpast, htop]
      exact ⟨f, rfl, hbuild, htop, rfl, rfl, rfl⟩

theorem defCommand_answers (f : Fields) (b : Block) : (defCommand f b).2.Answers (.ok (.define f)) b := by
  have hchecked := defCommand_checked f b
  cases hp : b.phase with
  | build => exact defCommand_build_answers f hp
  | serve =>
    rw [defCommand_serve f hp] at hchecked ⊢
    exact raise_zero_answers hchecked rfl Status.noConfusion
  | failed =>
    rw [defCommand_failed f hp] at hchecked ⊢
    exact raise_zero_answers hchecked rfl Status.noConfusion

theorem commitCommand_answers (f : Fields) (b : Block) : (commitCommand f b).2.Answers (.ok (.commit f)) b := by
  have hchecked := commitCommand_checked f b
  rcases commitCommand_cases f b with ⟨-, e⟩ | ⟨-, e⟩ | ⟨-, -, e⟩ | ⟨hbuild, -, e⟩ <;> rw [e] at hchecked ⊢
  case inr.inr.inr => exact .inr (.inr (.inl ⟨f, rfl, hbuild, rfl, rfl, rfl⟩))
  all_goals exact raise_zero_answers hchecked rfl Status.noConfusion

/-- A well-formed READ in SERVE: the lowest gap, or the words with the first and the last address (R172, R173). -/
theorem readCommand_wellFormed_answers {f : Fields} {b : Block} (hserve : b.phase = .serve)
    (hwf : (Instr.read f).wellFormed = true) : (readCommand f b).2.Answers (.ok (.read f)) b := by
  have hfirst := addr_le f
  have hcount : f.sc.toNat < 0x10000 := f.sc.isLt
  rcases readCommand_wellFormed_cases hserve hwf with ⟨x, hgap, e⟩ | ⟨ws, hlen, -, e⟩ <;> rw [e]
  · have hle : x ≤ 0x10000 := firstGap_le hfirst hgap
    have hx : (BitVec.ofNat 17 x).toNat = x := Nat.mod_eq_of_lt (by omega)
    refine ⟨f, rfl, hserve, ?_, ?_, rfl, rfl⟩ <;> rwa [raise_a0, hx]
  · exact .inr (.inr (.inr ⟨f, rfl, hserve, addr17_toNat f, Nat.mod_eq_of_lt (by omega), hlen⟩))

theorem readCommand_answers (f : Fields) (b : Block) : (readCommand f b).2.Answers (.ok (.read f)) b := by
  have hchecked := readCommand_checked f b
  rcases readCommand_cases f b with ⟨-, e⟩ | ⟨-, e⟩ | ⟨-, -, e⟩ | ⟨q, hserve, hq, -⟩
  case inr.inr.inr =>
    have hwf : _ = (Instr.read f).wellFormed := requestOperands_isSome f
    exact readCommand_wellFormed_answers hserve (by rw [← hwf, hq]; rfl)
  all_goals
    rw [e] at hchecked ⊢
    exact raise_zero_answers hchecked rfl Status.noConfusion

theorem writeCommand_answers (f : Fields) (b : Block) : (writeCommand f b).2.Answers (.ok (.write f)) b := by
  have hchecked := writeCommand_checked f b
  rcases writeCommand_cases f b with ⟨-, e⟩ | ⟨-, e⟩ | ⟨-, -, e⟩ | ⟨q, hserve, hq, e⟩ <;> rw [e] at hchecked ⊢
  case inr.inr.inr =>
    obtain ⟨-, haddr, -, -⟩ := requestOperands_eq_some hq
    rw [haddr]
    exact ⟨f, rfl, hserve, addr17_toNat f, rfl, rfl⟩
  all_goals exact raise_zero_answers hchecked rfl Status.noConfusion

theorem transactInstr_answers (i : Instr) (b : Block) : (transactInstr i b).2.Answers (.ok i) b := by
  cases i with
  | enc f => exact encCommand_answers f b
  | define f => exact defCommand_answers f b
  | commit f => exact commitCommand_answers f b
  | read f => exact readCommand_answers f b
  | write f => exact writeCommand_answers f b

/-- Settles O41: stage 1 finds a reserved opcode or one of the five commands, each answered by its own columns. -/
theorem responseFieldsByStatus : Obligations.ResponseFieldsByStatus := by
  intro w b
  unfold transact
  cases hop : opcodeOf (w.extractLsb' 120 8) with
  | none => rw [decode_of_reserved hop]; exact reservedCommand_answers _ b
  | some op => rw [decode_of_assigned hop]; exact transactInstr_answers _ b

end Sys2Proof.Proofs
end

section
/-!
Errors and phases (spec/60_exceptions.md R202 to R207, R213): what an error records, how FAILED is entered and that it
is not left, and the edges between the phases.
-/

namespace Sys2Proof.Proofs

open Sys2Proof.Machine

/-! ### What an error records (R202, R204, R207) -/

theorem transact_of_decode {w : CommandWord} {i : Instr} (h : decode w = .ok i) (b : Block) :
    transact w b = transactInstr i b := by
  simp only [transact, h]

/-- The registers of a fatal error are read off its response: EADDR_LO and EADDR_HI are the low 16 bits of A0 and A1
(R146). -/
theorem fatal_records_response (e : Status) (lo hi : Nat) (b : Block) :
    (fatal e lo hi b).1 =
      { b with
        phase := .failed
        ecode := (fatal e lo hi b).2.status.code
        eaddrLo := (fatal e lo hi b).2.a0.setWidth 16
        eaddrHi := (fatal e lo hi b).2.a1.setWidth 16 } := by
  rw [fatal_a0, fatal_a1, BitVec.setWidth_ofNat_of_le (by decide), BitVec.setWidth_ofNat_of_le (by decide)]
  rfl

/-- An error that does not answer a DEF in BUILD leaves the block: the other effects on it are those of a command that
succeeds. -/
theorem CommandEffect.error_unchanged {d : Except DecodeError Instr} {b : Block} {r : Block × Response}
    (h : CommandEffect d b r) (hfail : r.2.status ≠ .ok) (hnot : ¬ ((∃ f, d = .ok (.define f)) ∧ b.phase = .build)) :
    r.1 = b := by
  cases h with
  | unchanged => rfl
  | committed | inserted => exact absurd rfl hfail
  | failed decoded building => exact absurd ⟨⟨_, decoded⟩, building⟩ hnot

/-- Settles O40: a DEF that fails in BUILD is fatal, and only there. -/
theorem errorsRecordOnlyWhatIsFatal : Obligations.ErrorsRecordOnlyWhatIsFatal := by
  refine fun w b hfail => ⟨fun ⟨⟨f, hdecode⟩, hbuild⟩ => ?_, (transact_effect w b).error_unchanged hfail⟩
  rw [transact_of_decode hdecode, transactInstr_define] at hfail ⊢
  obtain ⟨e, lo, hi, hconf, heq⟩ := defCommand_fatal hbuild hfail
  rw [heq]
  exact ⟨hconf, fatal_records_response e lo hi b⟩

/-! ### FAILED (R206) -/

theorem runCommands_eq_of_failed (ws : List CommandWord) {b : Block} (hp : b.phase = .failed) :
    runCommands ws b = (b, List.replicate ws.length (bare .failedRefused)) := by
  induction ws with
  | nil => rfl
  | cons w ws ih => rw [runCommands, transact_failed w hp, raise_block, ih]; rfl

/-- Only a DEF that fails in BUILD enters FAILED. -/
theorem CommandEffect.enters_failed {d : Except DecodeError Instr} {b : Block} {r : Block × Response}
    (h : CommandEffect d b r) (hbefore : b.phase ≠ .failed) (hafter : r.1.phase = .failed) :
    (∃ f, d = .ok (.define f)) ∧ b.phase = .build ∧ r.2.status ≠ .ok := by
  cases h with
  | unchanged => exact absurd hafter hbefore
  | committed => cases hafter
  | failed decoded building names =>
    exact ⟨⟨_, decoded⟩, building, fun hok => by
      obtain rfl : _ = Status.ok := hok
      cases names.configuration⟩
  | inserted => exact absurd hafter hbefore

/-- Settles O36: the run by induction on the commands; the entry is a DEF's fatal error, which records its response. -/
theorem failedRefusesEverything : Obligations.FailedRefusesEverything := by
  refine ⟨fun ws b => runCommands_eq_of_failed ws, fun w b hbefore hafter => ?_⟩
  obtain ⟨⟨f, hdecode⟩, hbuild, hfail⟩ := (transact_effect w b).enters_failed hbefore hafter
  obtain ⟨hconf, hblock⟩ := (errorsRecordOnlyWhatIsFatal w b hfail).1 ⟨⟨f, hdecode⟩, hbuild⟩
  refine ⟨f, hdecode, hbuild, hconf, ?_⟩
  rw [hblock]
  exact ⟨rfl, rfl, rfl, rfl, rfl⟩

/-! ### The phase graph (R213) -/

/-- Only a COMMIT leads to SERVE. -/
theorem CommandEffect.enters_serve {d : Except DecodeError Instr} {b : Block} {r : Block × Response}
    (h : CommandEffect d b r) (hbefore : b.phase ≠ .serve) (hafter : r.1.phase = .serve) :
    ∃ f, d = .ok (.commit f) := by
  cases h with
  | committed decoded => exact ⟨_, decoded⟩
  | unchanged | inserted => exact absurd hafter hbefore
  | failed => cases hafter

/-- The COMMIT that leads to SERVE has every field zero (R150). -/
theorem fields_of_commit_to_serve {f : Fields} {b : Block} (hbuild : b.phase = .build)
    (hafter : (commitCommand f b).1.phase = .serve) : f = Fields.zero := by
  by_contra hne
  rw [commitCommand_malformed hbuild hne, raise_block, hbuild] at hafter
  cases hafter

theorem transact_serve_iff {w : CommandWord} {b : Block} (hbuild : b.phase = .build) :
    (transact w b).1.phase = .serve ↔ w = commitWord := by
  constructor
  · intro hafter
    obtain ⟨f, hdecode⟩ := (transact_effect w b).enters_serve (by rw [hbuild]; decide) hafter
    rw [transact_of_decode hdecode] at hafter
    obtain rfl := fields_of_commit_to_serve hbuild hafter
    exact (decode_eq_ok.mp hdecode).symm
  · rintro rfl
    rw [transact_commitWord, commitCommand_wellFormed hbuild]
    rfl

theorem transact_failed_iff {w : CommandWord} {b : Block} (hbuild : b.phase = .build) :
    (transact w b).1.phase = .failed ↔ ∃ f, decode w = .ok (.define f) ∧ (transact w b).2.status ≠ .ok := by
  constructor
  · intro hafter
    obtain ⟨⟨f, hdecode⟩, -, hfail⟩ := (transact_effect w b).enters_failed (by rw [hbuild]; decide) hafter
    exact ⟨f, hdecode, hfail⟩
  · rintro ⟨f, hdecode, hfail⟩
    obtain ⟨-, hblock⟩ := (errorsRecordOnlyWhatIsFatal w b hfail).1 ⟨⟨f, hdecode⟩, hbuild⟩
    rw [hblock]

/-- Settles O38: the block is kept in SERVE and in FAILED; out of BUILD there are the two edges. -/
theorem phaseGraph : Obligations.PhaseGraph := by
  refine ⟨fun w b => ⟨fun hserve => ?_, fun hfailed => ?_, fun hbuild =>
    ⟨transact_serve_iff hbuild, transact_failed_iff hbuild⟩⟩, fun s rest hin => ⟨_, step_of_reset hin, rfl⟩⟩
  · rw [(transact_effect w b).serve_unchanged hserve, hserve]
  · rw [transact_failed w hfailed, raise_block, hfailed]

end Sys2Proof.Proofs
end

section
/-!
Steps and runs of the machine (spec/70_reset_and_hazards.md R234, R237, R238): what a step does by its input, and the
host's run of a list of commands against the block's run of it.
-/

namespace Sys2Proof.Proofs

open Sys2Proof.Machine

/-- Settles O32: the three shapes of the inputs; a command's answer is the block of its transaction and its response
after those before it. -/
theorem everyStepAnswers : Obligations.EveryStepAnswers :=
  fun _ => ⟨step_of_no_input, fun _ => step_of_reset, fun _ _ => step_of_command⟩

theorem core_run_zero (s : State) : Host.Core.run Sys2Proof.core 0 s = .next s := rfl

theorem core_run_succ_of_step {s s' : State} (h : step s = .next s') (k : Nat) :
    Host.Core.run Sys2Proof.core (k + 1) s = Host.Core.run Sys2Proof.core k s' := by
  have hstep : Sys2Proof.core.step s = .next s' := h
  simp only [Host.Core.run, hstep]

/-- A run that starts with a command goes on as the run from the state after that command's answer (R238). -/
theorem core_run_succ_of_command {s : State} {w : CommandWord} {rest : List HostEvent}
    (h : s.inputs = .command w :: rest) (k : Nat) :
    Host.Core.run Sys2Proof.core (k + 1) s =
      Host.Core.run Sys2Proof.core k (answer { s with inputs := rest } (transact w s.block)) :=
  core_run_succ_of_step (step_of_command h) k

/-- Settles O33, by induction on the commands, for every state: the first command's answer is the state that the later
commands run from, and its response stands before theirs. -/
theorem hostRunIsTheTransactionRun : Obligations.HostRunIsTheTransactionRun := by
  intro ws rest
  induction ws with
  | nil =>
    rintro s rfl
    rw [List.length_nil, core_run_zero, runCommands, List.append_nil]
  | cons w ws ih =>
    intro s hinputs
    calc Host.Core.run Sys2Proof.core (ws.length + 1) s
      _ = Host.Core.run Sys2Proof.core ws.length
            (answer { s with inputs := ws.map .command ++ rest } (transact w s.block)) :=
        core_run_succ_of_command hinputs _
      _ = .next
            { block := (runCommands ws (transact w s.block).1).1
              inputs := rest
              responses := (s.responses ++ [(transact w s.block).2]) ++ (runCommands ws (transact w s.block).1).2 } :=
        ih _ rfl
      _ = .next
            { block := (runCommands (w :: ws) s.block).1
              inputs := rest
              responses := s.responses ++ (runCommands (w :: ws) s.block).2 } := by
        rw [List.append_assoc, List.singleton_append, runCommands]

end Sys2Proof.Proofs
end
